-- ==== Sys2Proof/Word.lean ====
section
/-! DEFINITION. The word types of the TLMC core (spec 00_scope.md section 5, rule R5): every value is unsigned and has a
stated width. -/

namespace Sys2Proof

/-- A register, a memory byte, a timer (R10, R16, R17, R40). -/
abbrev Byte := BitVec 8

/-- The index register, the program counter, a stack slot, an opcode (R12, R13, R14, R60). -/
abbrev Word := BitVec 16

/-- A register number `x` or `y`, or the row count `n` (R61). -/
abbrev Nibble := BitVec 4

/-- The address field `nnn` (R61). -/
abbrev Addr12 := BitVec 12

end Sys2Proof
end

