-- ==== Sys2Proof/Machine/Transaction.lean ====
section
/-! DEFINITION. The transactions of the interface (spec 70_reset_and_hazards.md rule R189), and what the driver issues once its
listed transactions are used up (rule R185). -/

namespace Sys2Proof.Machine

/-- The transactions of the interface, R189's table. The arguments of `SetKey` and `PixelAt` have exactly the ranges the spec
gives them, so the driver has no move outside them (log entry 18: decision D23). -/
inductive Transaction where
  /-- `Reset`, R180. -/
  | reset
  /-- `Load(FONT, ROM)`, R181. -/
  | load (font rom : List Byte)
  /-- `Step`, R188. -/
  | step
  /-- `Tick`, R162. -/
  | tick
  /-- `SetKey(k, pressed)`, R165. -/
  | setKey (k : Fin 16) (pressed : Bool)
  /-- `IsDirty`, R134. -/
  | isDirty
  /-- `ClearDirty`, R134. -/
  | clearDirty
  /-- `PixelAt(x, y)`, R133. -/
  | pixelAt (x : Fin 64) (y : Fin 32)
deriving DecidableEq, Repr, Inhabited

/-- MODEL'S OWN (log entry 1): how the driver goes on after the transactions listed in `State.agenda`, for ever. -/
inductive Onward where
  /-- The same block of transactions again and again; the empty block stands for `Step`s only. -/
  | cycle (block : List Transaction)
  /-- The endless free sequence `Config.schedule`, from its `turn`-th transaction on. -/
  | free (turn : Nat)
deriving DecidableEq, Repr

end Sys2Proof.Machine
end

