-- ==== Sys2Proof/Config.lean ====
section
/-! DEFINITION. What is fixed for the machine (spec 00_scope.md section 5, rule R25) and the free values (rules R23, R185). -/

namespace Sys2Proof

/-- `MEM_SIZE`: addresses 0x000 to 0xFFF (R40). -/
def Config.memSize : Nat := 4096

/-- `FONT_BASE` (R44). -/
def Config.fontBase : Nat := 0x000

/-- `FONT_BYTES` (R44). -/
def Config.fontBytes : Nat := 80

/-- `ROM_BASE` (R44, R181). -/
def Config.romBase : Nat := 0x200

/-- `ROM_MAX`, one byte less than the room there is (R182, decision D25 of the spec). -/
def Config.romMax : Nat := 0xDFF

/-- FREE VALUE (R23, R113; log entry 2; DESIGN CHOICE, safe): the `k`-th random byte drawn, any byte. It has no body, so
nothing can be proved about which byte it is; `State.draws` counts the draws, so that every `Cxnn` gets a fresh one. -/
opaque Config.randomByte : Nat → Byte

/-- FREE VALUE (R185; log entry 1; DESIGN CHOICE, safe): the `k`-th transaction of an endless sequence the driver chooses, any
sequence. It has no body, so nothing can be proved about which one it is; `Onward.free` counts the turns. -/
opaque Config.schedule : Nat → Machine.Transaction

end Sys2Proof
end

