-- ==== Sys2Proof/Syntax.lean ====
section
/-! DEFINITION. The 34 instructions of the opcode table (spec 30_encoding.md rules R63, R65), one constructor per row, in the
table's order, with the fields each one uses (R61). Ignored bits (R67, R69) are no field. -/

namespace Sys2Proof

/-- One instruction. The docstrings give the pattern, which is its normative name (R71), and the rule of its effect. -/
inductive Instr where
  /-- `00E0` CLS, R130. -/
  | cls
  /-- `00EE` RET, R80. -/
  | ret
  /-- `1nnn` JP nnn, R81. -/
  | jp (nnn : Addr12)
  /-- `2nnn` CALL nnn, R82. -/
  | call (nnn : Addr12)
  /-- `3xnn` SE Vx, nn, R90. -/
  | seImm (x : Nibble) (nn : Byte)
  /-- `4xnn` SNE Vx, nn, R91. -/
  | sneImm (x : Nibble) (nn : Byte)
  /-- `5xy0` SE Vx, Vy, R92. -/
  | seReg (x y : Nibble)
  /-- `9xy0` SNE Vx, Vy, R93. -/
  | sneReg (x y : Nibble)
  /-- `6xnn` LD Vx, nn, R102. -/
  | ldImm (x : Nibble) (nn : Byte)
  /-- `7xnn` ADD Vx, nn, R103. -/
  | addImm (x : Nibble) (nn : Byte)
  /-- `8xy0` LD Vx, Vy, R104. -/
  | ldReg (x y : Nibble)
  /-- `8xy1` OR Vx, Vy, R105. -/
  | orReg (x y : Nibble)
  /-- `8xy2` AND Vx, Vy, R106. -/
  | andReg (x y : Nibble)
  /-- `8xy3` XOR Vx, Vy, R107. -/
  | xorReg (x y : Nibble)
  /-- `8xy4` ADD Vx, Vy, R108. -/
  | addReg (x y : Nibble)
  /-- `8xy5` SUB Vx, Vy, R109. -/
  | subReg (x y : Nibble)
  /-- `8xy6` SHR Vx, R110; `y` ignored. -/
  | shr (x : Nibble)
  /-- `8xy7` SUBN Vx, Vy, R111. -/
  | subnReg (x y : Nibble)
  /-- `8xyE` SHL Vx, R112; `y` ignored. -/
  | shl (x : Nibble)
  /-- `Annn` LD I, nnn, R120. -/
  | ldIndex (nnn : Addr12)
  /-- `Bnnn` JP V0, nnn, R83. -/
  | jpV0 (nnn : Addr12)
  /-- `Cxnn` RND Vx, nn, R113. -/
  | rnd (x : Nibble) (nn : Byte)
  /-- `Dxyn` DRW Vx, Vy, n, R131. -/
  | drw (x y n : Nibble)
  /-- `Ex9E` SKP Vx, R94. -/
  | skp (x : Nibble)
  /-- `ExA1` SKNP Vx, R95. -/
  | sknp (x : Nibble)
  /-- `Fx07` LD Vx, DT, R140. -/
  | ldFromDelay (x : Nibble)
  /-- `Fx0A` LD Vx, K, R141. -/
  | ldKey (x : Nibble)
  /-- `Fx15` LD DT, Vx, R142. -/
  | ldDelay (x : Nibble)
  /-- `Fx18` LD ST, Vx, R143. -/
  | ldSound (x : Nibble)
  /-- `Fx1E` ADD I, Vx, R121. -/
  | addIndex (x : Nibble)
  /-- `Fx29` LD F, Vx, R122. -/
  | ldGlyph (x : Nibble)
  /-- `Fx33` LD B, Vx, R123. -/
  | ldBcd (x : Nibble)
  /-- `Fx55` LD [I], Vx, R124. -/
  | storeRegs (x : Nibble)
  /-- `Fx65` LD Vx, [I], R125. -/
  | loadRegs (x : Nibble)
deriving DecidableEq, Repr

/-- What the decoder answers (R72): an instruction with its fields, or the word it rejects, by name (R66). -/
inductive Decoded where
  /-- The word is this instruction. -/
  | instr (i : Instr)
  /-- No row of the table matches the word `op`; `Machine.coreStep` then enters the fatal fault `UnknownOpcode` (R151). -/
  | unknownOpcode (op : Word)
deriving DecidableEq, Repr

/-- One row of the opcode map: a word `op` is this row's when `op AND mask = value` (R65). -/
structure Row where
  /-- The bits that must match. -/
  value : Word
  /-- Which bits must match. -/
  mask : Word
deriving DecidableEq, Repr

end Sys2Proof
end

