-- ==== Sys2Proof/Machine/State.lean ====
section
/-! DEFINITION. The state (spec 10_state.md): everything R10 to R22 name, the output events of R24, and three
fields of the model's own, `draws` (log entry 2), `agenda` and `onward` (log entry 1). Plain data throughout. -/

namespace Sys2Proof.Machine

/-- The four fatal faults (R150). -/
inductive FaultCode where
  /-- Raised by the decode of a word no row matches (R151). -/
  | unknownOpcode
  /-- Raised by `2nnn` with `sp` = 16 (R153). -/
  | stackOverflow
  /-- Raised by `00EE` with `sp` = 0 (R154). -/
  | stackUnderflow
  /-- Raised by `Ex9E`, `ExA1` with `V[x]` above 15 (R155). -/
  | keyIndexOutOfRange
deriving DecidableEq, Repr

/-- The fault record (R22, R156): which fault, the full opcode, the address of the faulting instruction. -/
structure FaultRecord where
  code : FaultCode
  opcode : Word
  pc : Word
deriving DecidableEq, Repr

/-- The direction of a memory access (R24). -/
inductive AccessKind where
  | read
  | write
deriving DecidableEq, Repr

/-- The output events (R24). -/
inductive Event where
  /-- The one-shot beep signal (R163). -/
  | beep
  /-- `Diag(MemoryOutOfRange, addr, read|write)` (R41, R42, R152). -/
  | diag (addr : Nat) (kind : AccessKind)
deriving DecidableEq, Repr

/-- Memory: the listed cells, addresses strictly rising, no listed byte 0 (`Memory.wf`, in Machine/Ops.lean); an unlisted
address reads `Memory.unlisted`. -/
abbrev Memory := List Host.Cell

/-- The display: 32 rows of 64 pixels, row-major, row 0 first (R19). -/
abbrev Display := Vector (Vector Bool 64) 32

/-- The state of the machine. -/
structure State where
  /-- `V[0x0]` to `V[0xF]` (R10); `V[0xF]` is the flag register (R11). -/
  v : Vector Byte 16
  /-- The index register `I` (R12). -/
  index : Word
  /-- The program counter (R13). -/
  pc : Word
  /-- The call stack's slots (R14). -/
  stack : Vector Word 16
  /-- The number of return addresses on the stack, 0 to 16 (R15). -/
  sp : Fin 17
  /-- The delay timer (R16). -/
  delay : Byte
  /-- The sound timer (R17). -/
  sound : Byte
  /-- The 4096 bytes of memory (R40). -/
  mem : Memory
  /-- The display (R19). -/
  disp : Display
  /-- The display-changed flag (R20). -/
  dirty : Bool
  /-- The keypad flags (R21). -/
  key : Vector Bool 16
  /-- The fault latch's bit (R22). -/
  halted : Bool
  /-- The fault latch's record, empty until a fatal fault (R22, R26). -/
  fault : Option FaultRecord
  /-- The output events, in the order produced, oldest first (R24; log entry 16). -/
  events : List Event
  /-- MODEL'S OWN: how many random bytes have been drawn (log entry 2). -/
  draws : Nat
  /-- MODEL'S OWN: the transactions the driver issues next, oldest first (log entry 1). -/
  agenda : List Transaction
  /-- MODEL'S OWN: how the driver goes on when `agenda` is empty (log entry 1). -/
  onward : Onward
deriving DecidableEq, Repr

/-- The stops of a run that are not faults of the hardware: every fatal fault of the spec is a NEXT state (R156). -/
inductive Fault where
  /-- Raised by the `Load` transaction, by no instruction, where it does not stand directly after `Reset` (R181, R189): the
  spec gives no behaviour for it. Safe: the run stops (log entry 17). -/
  | loadOutsideLaunch
deriving DecidableEq, Repr

/-- What the model gives no meaning to. -/
inductive Refusal where
  /-- Raised by an arm of `exec` for an instruction that has no meaning yet; no arm does. Safe: the run stops. -/
  | notModelled (mnemonic : String)
  /-- Raised by the `Load` transaction, by no instruction, where FONT has not 80 bytes (R181, R189). Safe: the launch is
  refused (log entry 17). -/
  | fontSize (length : Nat)
  /-- Raised by the `Load` transaction, by no instruction, where ROM has more than 3583 bytes (R182, decision D18: "a launch
  with an oversized ROM is outside this spec; a model refuses it"). Safe: the launch is refused (log entry 17). -/
  | romTooLarge (length : Nat)
deriving DecidableEq, Repr

/-- What a transaction answers. -/
abbrev Result := Host.Outcome State Fault Refusal

/-- The machine right after `Reset` (R26, R180): all zero and false, `pc` = 0x0200, all of memory 0x00. The zeros and the
`pc` are the spec's decisions D11 and D12 (log entries 3 and 4). `draws`, `agenda` and `onward` are the model's (log entries 2 and 1).
No program is placed: `Load` comes next (R181; log entry 5). -/
def State.reset : State where
  v := Vector.replicate 16 0#8
  index := 0x0000#16
  pc := 0x0200#16
  stack := Vector.replicate 16 0#16
  sp := 0
  delay := 0#8
  sound := 0#8
  mem := []
  disp := Vector.replicate 32 (Vector.replicate 64 false)
  dirty := false
  key := Vector.replicate 16 false
  halted := false
  fault := none
  events := []
  draws := 0
  agenda := []
  onward := .cycle []

end Sys2Proof.Machine
end

