-- ==== Sys2Proof/Machine/Ops.lean ====
section
/-! DEFINITION. The named operations over memory, registers, stack, display, keys and events, and fault entry
(spec 10_state.md, 20_memory.md, 60_exceptions.md). -/

namespace Sys2Proof.Machine

/-! ## Memory as data -/

/-- What an address that is not listed reads: `Reset` puts all of `mem` to 0x00 (R180; log entry 4: decision D12). -/
def Memory.unlisted : Byte := 0x00#8

/-- The byte listed at an address. -/
def Memory.get : Memory → Nat → Byte
  | [], _ => Memory.unlisted
  | (k, b) :: m, a => if k = a then b else Memory.get m a

/-- Put a byte at an address, keeping the canonical form: addresses rise, and a byte equal to `Memory.unlisted` is not
listed. -/
def Memory.set : Memory → Nat → Byte → Memory
  | [], a, b => if b = Memory.unlisted then [] else [(a, b)]
  | (k, c) :: m, a, b =>
    if a < k then (if b = Memory.unlisted then (k, c) :: m else (a, b) :: (k, c) :: m)
    else if a = k then (if b = Memory.unlisted then m else (a, b) :: m)
    else (k, c) :: Memory.set m a b

/-- Every listed address is at least `lo` and at most 0xFFF, addresses strictly rise, no listed byte is `Memory.unlisted`. -/
def Memory.wfFrom : Nat → Memory → Bool
  | _, [] => true
  | lo, (k, b) :: m =>
    decide (lo ≤ k) && decide (k < Config.memSize) && (b != Memory.unlisted) && Memory.wfFrom (k + 1) m

/-- The canonical form of memory: equal memories are equal lists. -/
def Memory.wf (m : Memory) : Bool := Memory.wfFrom 0 m

/-! ## Events (R24) -/

/-- Append an output event (R24: "in the order produced"). -/
def State.emit (s : State) (e : Event) : State := { s with events := s.events ++ [e] }

/-! ## Checked memory accesses (R41, R42, R48) -/

/-- The byte `MemRead` returns: the byte in memory up to 0xFFF, 0x00 above (R41). -/
def State.byteAt (s : State) (a : Nat) : Byte := if a ≤ 0xFFF then s.mem.get a else 0x00#8

/-- `MemRead(addr, 1)`: the byte, and a `Diag` where the address is above 0xFFF (R41). -/
def State.memRead (s : State) (a : Nat) : Byte × State :=
  (s.byteAt a, if a ≤ 0xFFF then s else s.emit (.diag a .read))

/-- `MemWrite(addr, 1, b)`: dropped with a `Diag` where the address is above 0xFFF (R42). -/
def State.memWrite (s : State) (a : Nat) (b : Byte) : State :=
  if a ≤ 0xFFF then { s with mem := s.mem.set a b } else s.emit (.diag a .write)

/-- `count` checked reads from ascending addresses (R48). -/
def State.readBytes (s : State) (a : Nat) : Nat → List Byte × State
  | 0 => ([], s)
  | count + 1 =>
    let first := s.memRead a
    let rest := first.2.readBytes (a + 1) count
    (first.1 :: rest.1, rest.2)

/-- Checked writes to ascending addresses (R48). -/
def State.writeBytes (s : State) (a : Nat) : List Byte → State
  | [] => s
  | b :: bs => (s.memWrite a b).writeBytes (a + 1) bs

/-! ## Registers (R10 to R13) -/

/-- `V[x]`. -/
def State.reg (s : State) (x : Nibble) : Byte := s.v[x.toNat]'x.isLt

/-- `V[x] <- b`. -/
def State.setReg (s : State) (x : Nibble) (b : Byte) : State := { s with v := s.v.set x.toNat b x.isLt }

/-- `VF <- flag`, then `V[x] <- result`: the write order of R101, so the result wins where `x` is 0xF. -/
def State.setFlagThenReg (s : State) (flag : Byte) (x : Nibble) (result : Byte) : State :=
  (s.setReg 0xF#4 flag).setReg x result

/-- `V[i] <- b` for consecutive registers from number `i` up, in that order (R125). -/
def State.setRegsFrom (s : State) (i : Nat) : List Byte → State
  | [] => s
  | b :: bs => (s.setReg (BitVec.ofNat 4 i) b).setRegsFrom (i + 1) bs

/-- `V[0]` to `V[x]` inclusive, in that order (R124). -/
def State.regsTo (s : State) (x : Nibble) : List Byte := s.v.toList.take (x.toNat + 1)

/-- `I <- w` (R12). -/
def State.setIndex (s : State) (w : Word) : State := { s with index := w }

/-- `pc <- target` (R13). -/
def State.jump (s : State) (target : Word) : State := { s with pc := target }

/-- `pc <- pc + 2`, modulo 65536 (R13; log entry 21: decision D24). -/
def State.advance (s : State) : State := { s with pc := s.pc + 2#16 }

/-- `pc <- pc + 4` on a taken skip, `pc + 2` otherwise (R96). -/
def State.skipIf (s : State) (taken : Bool) : State := { s with pc := s.pc + (if taken then 4#16 else 2#16) }

/-! ## Call stack (R14, R15) -/

/-- Store into `stack[sp]`, then increment `sp`; nothing where `sp` is 16 (R15, R82). -/
def State.push (s : State) (w : Word) : Option State :=
  if h : s.sp.val < 16 then
    some { s with stack := s.stack.set s.sp.val w h, sp := ⟨s.sp.val + 1, by omega⟩ }
  else none

/-- Decrement `sp`, then read `stack[sp]`, which is not cleared; nothing where `sp` is 0 (R15, R80). -/
def State.pop (s : State) : Option (Word × State) :=
  if h : s.sp.val = 0 then none
  else some (s.stack[s.sp.val - 1]'(by omega), { s with sp := ⟨s.sp.val - 1, by omega⟩ })

/-! ## Timers (R16, R17) -/

/-- `delay <- b`. -/
def State.setDelay (s : State) (b : Byte) : State := { s with delay := b }

/-- `sound <- b`; no `Beep` (R143). -/
def State.setSound (s : State) (b : Byte) : State := { s with sound := b }

/-! ## Random byte (R23) -/

/-- `DrawRand()`: the next random byte, a free value, and the state with one more byte drawn (log entry 2). -/
def State.drawRand (s : State) : Byte × State := (Config.randomByte s.draws, { s with draws := s.draws + 1 })

/-! ## Keypad (R21, R141) -/

/-- The ascending scan of `Fx0A`: a later pressed key overwrites an earlier one (R141). -/
def scanKeys : List Bool → Nat → Option Nat → Option Nat
  | [], _, found => found
  | pressed :: rest, k, found => scanKeys rest (k + 1) (if pressed then some k else found)

/-- The highest pressed key, if any is pressed. -/
def State.lastPressed (s : State) : Option Nat := scanKeys s.key.toList 0 none

/-! ## Display (R19, R20, R131) -/

/-- `Disp[x, y]`. -/
def Display.pixel (d : Display) (x : Fin 64) (y : Fin 32) : Bool := (d[y.val])[x.val]

/-- `Disp[x, y]` turned from on to off or from off to on. -/
def Display.toggle (d : Display) (x : Fin 64) (y : Fin 32) : Display :=
  d.set y.val ((d[y.val]).set x.val (!d.pixel x y))

/-- All 2048 pixels off (R130). -/
def Display.blank : Display := Vector.replicate 32 (Vector.replicate 64 false)

/-- Column `(ox + bitIndex) mod 64` (R131). -/
def spriteColumn (ox : Byte) (bitIndex : Nat) : Fin 64 := ⟨(ox.toNat + bitIndex) % 64, Nat.mod_lt _ (by decide)⟩

/-- Row `(oy + row) mod 32` (R131). -/
def spriteRow (oy : Byte) (row : Nat) : Fin 32 := ⟨(oy.toNat + row) % 32, Nat.mod_lt _ (by decide)⟩

/-- Draw the listed bits of one sprite byte on display row `py`, bit index 0 being bit 7 of the byte; the flag collects
whether a pixel that was on was turned off (R131). -/
def drawBits (ox : Byte) (py : Fin 32) (b : Byte) : List Nat → Display × Bool → Display × Bool
  | [], acc => acc
  | bitIndex :: rest, (d, hit) =>
    if b.getLsbD (7 - bitIndex) then
      drawBits ox py b rest
        (d.toggle (spriteColumn ox bitIndex) py, hit || d.pixel (spriteColumn ox bitIndex) py)
    else drawBits ox py b rest (d, hit)

/-- Draw the sprite rows from number `row` on (R131). -/
def drawRows (ox oy : Byte) : List Byte → Nat → Display × Bool → Display × Bool
  | [], _, acc => acc
  | b :: bs, row, acc =>
    drawRows ox oy bs (row + 1) (drawBits ox (spriteRow oy row) b [0, 1, 2, 3, 4, 5, 6, 7] acc)

/-- The display replaced and marked changed (R20: set "whether or not any pixel changed value"). -/
def State.setDisp (s : State) (d : Display) : State := { s with disp := d, dirty := true }

/-! ## Fault entry (R156)

There is no return from it (R157): only the `Reset` transaction, `State.restart` in Machine/Driver.lean, leaves the halted
state. -/

/-- A fatal fault: nothing of the instruction is committed, `halted` is set and the record filled with the code, the opcode
and the address of the faulting instruction, which `pc` still holds (R156; log entry 13: decision D10). -/
def State.raise (s : State) (code : FaultCode) (op : Word) : State :=
  { s with halted := true, fault := some ⟨code, op, s.pc⟩ }

/-- The code number of a fatal fault (R150; log entry 28: decision D16). -/
def FaultCode.number : FaultCode → Nat
  | .unknownOpcode => 1
  | .stackOverflow => 2
  | .stackUnderflow => 3
  | .keyIndexOutOfRange => 4

/-- The code number of the diagnostic `MemoryOutOfRange` (R150). -/
def memoryOutOfRangeNumber : Nat := 16

end Sys2Proof.Machine
end

