-- ==== Sys2Proof/Machine/Flags.lean ====
section
/-! DEFINITION. The flag computations (spec 10_state.md rule R11, 42_alu.md rule R100): the byte 0 or 1 that the six flag
writers put into `VF`. -/

namespace Sys2Proof.Machine

/-- A flag write stores the 8-bit value 0 or 1 (R11). -/
def flagByte (condition : Bool) : Byte := if condition then 1#8 else 0#8

/-- Carry of `8xy4`: 1 exactly when the exact sum exceeds 255 (R100, R108). -/
def carryFlag (a b : Byte) : Byte := flagByte (decide (a.toNat + b.toNat > 255))

/-- Flag of `8xy5` and `8xy7`: 1 exactly when the minuend is strictly greater than the subtrahend (R100, R109, R111). -/
def greaterFlag (minuend subtrahend : Byte) : Byte := flagByte (decide (minuend.toNat > subtrahend.toNat))

/-- Flag of `8xy6`: the bit shifted out, bit 0 (R110). -/
def lowBitFlag (a : Byte) : Byte := flagByte (a.getLsbD 0)

/-- Flag of `8xyE`: the bit shifted out, bit 7 (R112). -/
def highBitFlag (a : Byte) : Byte := flagByte (a.getLsbD 7)

/-- Flag of `Dxyn`: 1 where a pixel went from on to off (R131). -/
def collisionFlag (hit : Bool) : Byte := flagByte hit

end Sys2Proof.Machine
end

