-- ==== Sys2Proof/Machine/Operands.lean ====
section
/-! DEFINITION. The operand forms (spec 30_encoding.md rule R62, 20_memory.md rule R43): immediates used at their own width or
zero-extended, `V[x]`, `I + i`, and the values the instructions make of a register operand. Register operands are
`State.reg`, in Machine/Ops.lean. -/

namespace Sys2Proof.Machine

/-- `zext_16(nnn)`: an absolute byte address (R62). -/
def absoluteAddress (nnn : Addr12) : Word := nnn.setWidth 16

/-- `zext_16(V[0]) + zext_16(nnn)`, the target of `Bnnn`: a 16-bit sum, not reduced to 12 bits (R83). -/
def State.offsetTarget (s : State) (nnn : Addr12) : Word := (s.reg 0x0#4).setWidth 16 + nnn.setWidth 16

/-- `I + 0`: the base of every data access, a natural number; the offsets are added without truncation (R43; log entry 11:
decision D8). -/
def State.dataBase (s : State) : Nat := s.index.toNat

/-- `(I + zext_16(V[x])) mod 65536` (R121; log entry 10: decision D7). -/
def State.indexPlus (s : State) (x : Nibble) : Word := s.index + (s.reg x).setWidth 16

/-- `zext_16(V[x]) * 5`: the address of a glyph, from the whole 8-bit value (R122). -/
def State.glyphAddress (s : State) (x : Nibble) : Word := (s.reg x).setWidth 16 * 5#16

/-- The decimal digits of a byte: hundreds, tens, units (R123). -/
def decimalDigits (b : Byte) : List Byte := [b / 100#8, b / 10#8 % 10#8, b % 10#8]

/-- `key[k]` for the key number `V[x]`; nothing where `V[x]` is above 15 (R94, R155). -/
def State.keyOperand (s : State) (x : Nibble) : Option Bool :=
  if h : (s.reg x).toNat ≤ 15 then some (s.key[(s.reg x).toNat]'(by omega)) else none

end Sys2Proof.Machine
end

