-- ==== Sys2Proof/Machine/Alu.lean ====
section
/-! DEFINITION. Load, arithmetic, logic, shift, random (spec 42_alu.md): 6xnn, 7xnn, 8xy0 to 8xy7, 8xyE, Cxnn. Operands are
latched before any write, and the flag is written before the result (R101; log entry 7: decision D2). -/

namespace Sys2Proof.Machine

/-- `6xnn` LD Vx, nn (R102). -/
def execLdImm (x : Nibble) (nn : Byte) (s : State) : Result := .next (s.setReg x nn).advance

/-- `7xnn` ADD Vx, nn (R103): no flag. -/
def execAddImm (x : Nibble) (nn : Byte) (s : State) : Result := .next (s.setReg x (s.reg x + nn)).advance

/-- `8xy0` LD Vx, Vy (R104). -/
def execLdReg (x y : Nibble) (s : State) : Result := .next (s.setReg x (s.reg y)).advance

/-- `8xy1` OR (R105): no flag. -/
def execOrReg (x y : Nibble) (s : State) : Result := .next (s.setReg x (s.reg x ||| s.reg y)).advance

/-- `8xy2` AND (R106): no flag. -/
def execAndReg (x y : Nibble) (s : State) : Result := .next (s.setReg x (s.reg x &&& s.reg y)).advance

/-- `8xy3` XOR (R107): no flag. -/
def execXorReg (x y : Nibble) (s : State) : Result := .next (s.setReg x (s.reg x ^^^ s.reg y)).advance

/-- `8xy4` ADD Vx, Vy (R108): carry out. -/
def execAddReg (x y : Nibble) (s : State) : Result :=
  let a := s.reg x
  let b := s.reg y
  .next (s.setFlagThenReg (carryFlag a b) x (a + b)).advance

/-- `8xy5` SUB (R109): flag = strictly greater. -/
def execSubReg (x y : Nibble) (s : State) : Result :=
  let a := s.reg x
  let b := s.reg y
  .next (s.setFlagThenReg (greaterFlag a b) x (a - b)).advance

/-- `8xy6` SHR Vx (R110): the source is `V[x]`, not `V[y]`. -/
def execShr (x : Nibble) (s : State) : Result :=
  let a := s.reg x
  .next (s.setFlagThenReg (lowBitFlag a) x (a >>> 1)).advance

/-- `8xy7` SUBN (R111). -/
def execSubnReg (x y : Nibble) (s : State) : Result :=
  let a := s.reg x
  let b := s.reg y
  .next (s.setFlagThenReg (greaterFlag b a) x (b - a)).advance

/-- `8xyE` SHL Vx (R112): the source is `V[x]`, not `V[y]`. -/
def execShl (x : Nibble) (s : State) : Result :=
  let a := s.reg x
  .next (s.setFlagThenReg (highBitFlag a) x (a <<< 1)).advance

/-- `Cxnn` RND Vx, nn (R113): exactly one random byte is drawn, a free value (log entry 2). -/
def execRnd (x : Nibble) (nn : Byte) (s : State) : Result :=
  let drawn := s.drawRand
  .next (drawn.2.setReg x (drawn.1 &&& nn)).advance

end Sys2Proof.Machine
end

