-- ==== Sys2Proof/Decode.lean ====
section
/-! DEFINITION. The decoder (spec 30_encoding.md rules R61, R63, R66 to R69, R72), then the encoder, written from the same
table (rules R64, R65). Decoding depends on the word alone (R4). -/

namespace Sys2Proof

/-! ## Fields (R61) -/

/-- The top nibble, `op[15:12]`. -/
def fieldTop (op : Word) : Nibble := op.extractLsb' 12 4

/-- `x`, `op[11:8]`. -/
def fieldX (op : Word) : Nibble := op.extractLsb' 8 4

/-- `y`, `op[7:4]`. -/
def fieldY (op : Word) : Nibble := op.extractLsb' 4 4

/-- `n`, `op[3:0]`. -/
def fieldN (op : Word) : Nibble := op.extractLsb' 0 4

/-- `nn`, `op[7:0]`. -/
def fieldNN (op : Word) : Byte := op.extractLsb' 0 8

/-- `nnn`, `op[11:0]`. -/
def fieldNNN (op : Word) : Addr12 := op.extractLsb' 0 12

/-! ## The decision tree (R63) -/

/-- Group 0 matches the whole word (R68; log entry 12: the spec's decision D9). -/
def decodeGroup0 (op : Word) : Decoded :=
  if op = 0x00E0#16 then .instr .cls
  else if op = 0x00EE#16 then .instr .ret
  else .unknownOpcode op

/-- Group 8 selects on the low nibble (R63). `8xy6` and `8xyE` ignore `y` (R69). -/
def decodeGroup8 (op : Word) : Decoded :=
  match fieldN op with
  | 0x0#4 => .instr (.ldReg (fieldX op) (fieldY op))
  | 0x1#4 => .instr (.orReg (fieldX op) (fieldY op))
  | 0x2#4 => .instr (.andReg (fieldX op) (fieldY op))
  | 0x3#4 => .instr (.xorReg (fieldX op) (fieldY op))
  | 0x4#4 => .instr (.addReg (fieldX op) (fieldY op))
  | 0x5#4 => .instr (.subReg (fieldX op) (fieldY op))
  | 0x6#4 => .instr (.shr (fieldX op))
  | 0x7#4 => .instr (.subnReg (fieldX op) (fieldY op))
  | 0xE#4 => .instr (.shl (fieldX op))
  | _ => .unknownOpcode op

/-- Group E selects on the low byte (R63). -/
def decodeGroupE (op : Word) : Decoded :=
  match fieldNN op with
  | 0x9E#8 => .instr (.skp (fieldX op))
  | 0xA1#8 => .instr (.sknp (fieldX op))
  | _ => .unknownOpcode op

/-- Group F selects on the low byte (R63). -/
def decodeGroupF (op : Word) : Decoded :=
  match fieldNN op with
  | 0x07#8 => .instr (.ldFromDelay (fieldX op))
  | 0x0A#8 => .instr (.ldKey (fieldX op))
  | 0x15#8 => .instr (.ldDelay (fieldX op))
  | 0x18#8 => .instr (.ldSound (fieldX op))
  | 0x1E#8 => .instr (.addIndex (fieldX op))
  | 0x29#8 => .instr (.ldGlyph (fieldX op))
  | 0x33#8 => .instr (.ldBcd (fieldX op))
  | 0x55#8 => .instr (.storeRegs (fieldX op))
  | 0x65#8 => .instr (.loadRegs (fieldX op))
  | _ => .unknownOpcode op

/-- The decision tree of R63 on the top nibble. Groups 5 and 9 ignore the low nibble (R67). -/
def decode (op : Word) : Decoded :=
  match fieldTop op with
  | 0x0#4 => decodeGroup0 op
  | 0x1#4 => .instr (.jp (fieldNNN op))
  | 0x2#4 => .instr (.call (fieldNNN op))
  | 0x3#4 => .instr (.seImm (fieldX op) (fieldNN op))
  | 0x4#4 => .instr (.sneImm (fieldX op) (fieldNN op))
  | 0x5#4 => .instr (.seReg (fieldX op) (fieldY op))
  | 0x6#4 => .instr (.ldImm (fieldX op) (fieldNN op))
  | 0x7#4 => .instr (.addImm (fieldX op) (fieldNN op))
  | 0x8#4 => decodeGroup8 op
  | 0x9#4 => .instr (.sneReg (fieldX op) (fieldY op))
  | 0xA#4 => .instr (.ldIndex (fieldNNN op))
  | 0xB#4 => .instr (.jpV0 (fieldNNN op))
  | 0xC#4 => .instr (.rnd (fieldX op) (fieldNN op))
  | 0xD#4 => .instr (.drw (fieldX op) (fieldY op) (fieldN op))
  | 0xE#4 => decodeGroupE op
  | _ => decodeGroupF op

/-- `hi : lo`: the byte at the lower address is bits 15 to 8 (R47, R60). -/
def opcodeOf (hi lo : Byte) : Word := hi.setWidth 16 <<< 8 ||| lo.setWidth 16

/-- The decoder on bytes, lowest address first: the answer and the bytes left, or nothing where fewer than two are given. -/
def decodeBytes : List Byte → Option (Decoded × List Byte)
  | hi :: lo :: rest => some (decode (opcodeOf hi lo), rest)
  | _ => none

/-- The two bytes of an opcode in ascending address order (R47, R71). -/
def opcodeBytes (op : Word) : List Byte := [op.extractLsb' 8 8, op.extractLsb' 0 8]

/-- The instruction the decoder reads from an opcode-table word: `w`'s low `nbits` bits, laid out as the hardware stores them
and given to `decodeBytes`. -/
def decodeTableWord (nbits w : Nat) : Option Instr :=
  match decodeBytes (opcodeBytes (BitVec.ofNat 16 (w % 2 ^ nbits))) with
  | some (.instr i, _) => some i
  | _ => none

/-! ## The formats (R64) -/

/-- A word from its four nibbles, `t : x : y : n` (formats XY, XYS, XYN). -/
def wordXYN (t x y n : Nibble) : Word :=
  t.setWidth 16 <<< 12 ||| x.setWidth 16 <<< 8 ||| y.setWidth 16 <<< 4 ||| n.setWidth 16

/-- `t : x : nn` (formats XNN, XSS). -/
def wordXNN (t x : Nibble) (nn : Byte) : Word :=
  t.setWidth 16 <<< 12 ||| x.setWidth 16 <<< 8 ||| nn.setWidth 16

/-- `t : nnn` (format NNN). -/
def wordNNN (t : Nibble) (nnn : Addr12) : Word :=
  t.setWidth 16 <<< 12 ||| nnn.setWidth 16

/-- The canonical word of an instruction (R65); an ignored field is encoded as 0 (R67, R69; log entry 19: decision D17). -/
def encode : Instr → Word
  | .cls => 0x00E0#16
  | .ret => 0x00EE#16
  | .jp nnn => wordNNN 0x1#4 nnn
  | .call nnn => wordNNN 0x2#4 nnn
  | .seImm x nn => wordXNN 0x3#4 x nn
  | .sneImm x nn => wordXNN 0x4#4 x nn
  | .seReg x y => wordXYN 0x5#4 x y 0x0#4
  | .sneReg x y => wordXYN 0x9#4 x y 0x0#4
  | .ldImm x nn => wordXNN 0x6#4 x nn
  | .addImm x nn => wordXNN 0x7#4 x nn
  | .ldReg x y => wordXYN 0x8#4 x y 0x0#4
  | .orReg x y => wordXYN 0x8#4 x y 0x1#4
  | .andReg x y => wordXYN 0x8#4 x y 0x2#4
  | .xorReg x y => wordXYN 0x8#4 x y 0x3#4
  | .addReg x y => wordXYN 0x8#4 x y 0x4#4
  | .subReg x y => wordXYN 0x8#4 x y 0x5#4
  | .shr x => wordXYN 0x8#4 x 0x0#4 0x6#4
  | .subnReg x y => wordXYN 0x8#4 x y 0x7#4
  | .shl x => wordXYN 0x8#4 x 0x0#4 0xE#4
  | .ldIndex nnn => wordNNN 0xA#4 nnn
  | .jpV0 nnn => wordNNN 0xB#4 nnn
  | .rnd x nn => wordXNN 0xC#4 x nn
  | .drw x y n => wordXYN 0xD#4 x y n
  | .skp x => wordXNN 0xE#4 x 0x9E#8
  | .sknp x => wordXNN 0xE#4 x 0xA1#8
  | .ldFromDelay x => wordXNN 0xF#4 x 0x07#8
  | .ldKey x => wordXNN 0xF#4 x 0x0A#8
  | .ldDelay x => wordXNN 0xF#4 x 0x15#8
  | .ldSound x => wordXNN 0xF#4 x 0x18#8
  | .addIndex x => wordXNN 0xF#4 x 0x1E#8
  | .ldGlyph x => wordXNN 0xF#4 x 0x29#8
  | .ldBcd x => wordXNN 0xF#4 x 0x33#8
  | .storeRegs x => wordXNN 0xF#4 x 0x55#8
  | .loadRegs x => wordXNN 0xF#4 x 0x65#8

/-! ## The opcode map (R65) -/

/-- The row of the opcode map an instruction belongs to, `match` and `mask` as R65 prints them. -/
def rowOf : Instr → Row
  | .cls => ⟨0x00E0#16, 0xFFFF#16⟩
  | .ret => ⟨0x00EE#16, 0xFFFF#16⟩
  | .jp _ => ⟨0x1000#16, 0xF000#16⟩
  | .call _ => ⟨0x2000#16, 0xF000#16⟩
  | .seImm _ _ => ⟨0x3000#16, 0xF000#16⟩
  | .sneImm _ _ => ⟨0x4000#16, 0xF000#16⟩
  | .seReg _ _ => ⟨0x5000#16, 0xF000#16⟩
  | .sneReg _ _ => ⟨0x9000#16, 0xF000#16⟩
  | .ldImm _ _ => ⟨0x6000#16, 0xF000#16⟩
  | .addImm _ _ => ⟨0x7000#16, 0xF000#16⟩
  | .ldReg _ _ => ⟨0x8000#16, 0xF00F#16⟩
  | .orReg _ _ => ⟨0x8001#16, 0xF00F#16⟩
  | .andReg _ _ => ⟨0x8002#16, 0xF00F#16⟩
  | .xorReg _ _ => ⟨0x8003#16, 0xF00F#16⟩
  | .addReg _ _ => ⟨0x8004#16, 0xF00F#16⟩
  | .subReg _ _ => ⟨0x8005#16, 0xF00F#16⟩
  | .shr _ => ⟨0x8006#16, 0xF00F#16⟩
  | .subnReg _ _ => ⟨0x8007#16, 0xF00F#16⟩
  | .shl _ => ⟨0x800E#16, 0xF00F#16⟩
  | .ldIndex _ => ⟨0xA000#16, 0xF000#16⟩
  | .jpV0 _ => ⟨0xB000#16, 0xF000#16⟩
  | .rnd _ _ => ⟨0xC000#16, 0xF000#16⟩
  | .drw _ _ _ => ⟨0xD000#16, 0xF000#16⟩
  | .skp _ => ⟨0xE09E#16, 0xF0FF#16⟩
  | .sknp _ => ⟨0xE0A1#16, 0xF0FF#16⟩
  | .ldFromDelay _ => ⟨0xF007#16, 0xF0FF#16⟩
  | .ldKey _ => ⟨0xF00A#16, 0xF0FF#16⟩
  | .ldDelay _ => ⟨0xF015#16, 0xF0FF#16⟩
  | .ldSound _ => ⟨0xF018#16, 0xF0FF#16⟩
  | .addIndex _ => ⟨0xF01E#16, 0xF0FF#16⟩
  | .ldGlyph _ => ⟨0xF029#16, 0xF0FF#16⟩
  | .ldBcd _ => ⟨0xF033#16, 0xF0FF#16⟩
  | .storeRegs _ => ⟨0xF055#16, 0xF0FF#16⟩
  | .loadRegs _ => ⟨0xF065#16, 0xF0FF#16⟩

/-- The word `op` belongs to the row (R65). -/
def Row.selects (r : Row) (op : Word) : Bool := op &&& r.mask == r.value

end Sys2Proof
end

