-- ==== Sys2Proof/Machine/Control.lean ====
section
/-! DEFINITION. Control transfer (spec 40_control_flow.md): 00EE, 1nnn, 2nnn, Bnnn. -/

namespace Sys2Proof.Machine

/-- `00EE` RET (R80): pop, resume two bytes after the popped address; `StackUnderflow` on an empty stack (R154; log entry 9:
decision D5). -/
def execRet (s : State) : Result :=
  match s.pop with
  | some (target, t) => .next (t.jump (target + 2#16))
  | none => .next (s.raise .stackUnderflow (encode .ret))

/-- `1nnn` JP (R81). -/
def execJp (nnn : Addr12) (s : State) : Result := .next (s.jump (absoluteAddress nnn))

/-- `2nnn` CALL (R82): push this instruction's own address; `StackOverflow` on the 17th nested call (R153; log entry 9:
decision D4). -/
def execCall (nnn : Addr12) (s : State) : Result :=
  match s.push s.pc with
  | some t => .next (t.jump (absoluteAddress nnn))
  | none => .next (s.raise .stackOverflow (encode (.call nnn)))

/-- `Bnnn` JP V0 (R83). -/
def execJpV0 (nnn : Addr12) (s : State) : Result := .next (s.jump (s.offsetTarget nnn))

end Sys2Proof.Machine
end

