-- ==== Sys2Proof/Machine/IndexMemory.lean ====
section
/-! DEFINITION. Index register and memory (spec 43_index_memory.md): Annn, Fx1E, Fx29, Fx33, Fx55, Fx65. No load or store
changes `I` (R12). -/

namespace Sys2Proof.Machine

/-- `Annn` LD I, nnn (R120). -/
def execLdIndex (nnn : Addr12) (s : State) : Result := .next (s.setIndex (absoluteAddress nnn)).advance

/-- `Fx1E` ADD I, Vx (R121): no flag. -/
def execAddIndex (x : Nibble) (s : State) : Result := .next (s.setIndex (s.indexPlus x)).advance

/-- `Fx29` LD F, Vx (R122): no memory access. -/
def execLdGlyph (x : Nibble) (s : State) : Result := .next (s.setIndex (s.glyphAddress x)).advance

/-- `Fx33` LD B, Vx (R123): the three decimal digits at `I`, `I+1`, `I+2`. -/
def execLdBcd (x : Nibble) (s : State) : Result :=
  .next (s.writeBytes s.dataBase (decimalDigits (s.reg x))).advance

/-- `Fx55` LD [I], Vx (R124): `V[0]` to `V[x]` inclusive. -/
def execStoreRegs (x : Nibble) (s : State) : Result :=
  .next (s.writeBytes s.dataBase (s.regsTo x)).advance

/-- `Fx65` LD Vx, [I] (R125): `V[0]` to `V[x]` inclusive. -/
def execLoadRegs (x : Nibble) (s : State) : Result :=
  let read := s.readBytes s.dataBase (x.toNat + 1)
  .next (read.2.setRegsFrom 0 read.1).advance

end Sys2Proof.Machine
end

