-- ==== Sys2Proof/Machine/Screen.lean ====
section
/-! DEFINITION. Display instructions (spec 44_display.md): 00E0, Dxyn. -/

namespace Sys2Proof.Machine

/-- `00E0` CLS (R130). -/
def execCls (s : State) : Result := .next (s.setDisp Display.blank).advance

/-- `Dxyn` DRW Vx, Vy, n (R131): the origin is latched before `VF` is written (R101; log entry 7), and is `(V[x], V[y])`
(log entry 14: decision D26). `n` = 0 draws no row. The rows are read before the first pixel is toggled, which nothing can
tell from the interleaved order (R132; log entry 26). -/
def execDrw (x y n : Nibble) (s : State) : Result :=
  let ox := s.reg x
  let oy := s.reg y
  let sprite := s.readBytes s.dataBase n.toNat
  let drawn := drawRows ox oy sprite.1 0 (s.disp, false)
  .next ((sprite.2.setReg 0xF#4 (collisionFlag drawn.2)).setDisp drawn.1).advance

end Sys2Proof.Machine
end

