-- ==== Sys2Proof/Machine/Skips.lean ====
section
/-! DEFINITION. Conditional skips (spec 41_skips.md): 3xnn, 4xnn, 5xy0, 9xy0, Ex9E, ExA1. -/

namespace Sys2Proof.Machine

/-- `3xnn` SE Vx, nn (R90). -/
def execSeImm (x : Nibble) (nn : Byte) (s : State) : Result := .next (s.skipIf (s.reg x == nn))

/-- `4xnn` SNE Vx, nn (R91). -/
def execSneImm (x : Nibble) (nn : Byte) (s : State) : Result := .next (s.skipIf (s.reg x != nn))

/-- `5xy0` SE Vx, Vy (R92). -/
def execSeReg (x y : Nibble) (s : State) : Result := .next (s.skipIf (s.reg x == s.reg y))

/-- `9xy0` SNE Vx, Vy (R93). -/
def execSneReg (x y : Nibble) (s : State) : Result := .next (s.skipIf (s.reg x != s.reg y))

/-- `Ex9E` SKP Vx (R94); `KeyIndexOutOfRange` where `V[x]` is above 15 (R155; log entry 9: decision D6). -/
def execSkp (x : Nibble) (s : State) : Result :=
  match s.keyOperand x with
  | some pressed => .next (s.skipIf pressed)
  | none => .next (s.raise .keyIndexOutOfRange (encode (.skp x)))

/-- `ExA1` SKNP Vx (R95); `KeyIndexOutOfRange` as `Ex9E`. -/
def execSknp (x : Nibble) (s : State) : Result :=
  match s.keyOperand x with
  | some pressed => .next (s.skipIf (!pressed))
  | none => .next (s.raise .keyIndexOutOfRange (encode (.sknp x)))

end Sys2Proof.Machine
end

