-- ==== Sys2Proof/Machine/TimersKeys.lean ====
section
/-! DEFINITION. Timer access and key wait (spec 45_timers_keys.md): Fx07, Fx0A, Fx15, Fx18. -/

namespace Sys2Proof.Machine

/-- `Fx07` LD Vx, DT (R140). -/
def execLdFromDelay (x : Nibble) (s : State) : Result := .next (s.setReg x s.delay).advance

/-- `Fx0A` LD Vx, K (R141): the highest pressed key, or, with none pressed, nothing at all: `pc` stays and the same
instruction is fetched again by the next `Step`. -/
def execLdKey (x : Nibble) (s : State) : Result :=
  match s.lastPressed with
  | some k => .next (s.setReg x (BitVec.ofNat 8 k)).advance
  | none => .next s

/-- `Fx15` LD DT, Vx (R142). -/
def execLdDelay (x : Nibble) (s : State) : Result := .next (s.setDelay (s.reg x)).advance

/-- `Fx18` LD ST, Vx (R143): emits no `Beep` itself. -/
def execLdSound (x : Nibble) (s : State) : Result := .next (s.setSound (s.reg x)).advance

end Sys2Proof.Machine
end

