-- ==== Sys2Proof/Machine/Cycle.lean ====
section
/-! DEFINITION. The fetch and one `Step` of the core (spec 30_encoding.md rule R60, 70_reset_and_hazards.md rule R188). -/

namespace Sys2Proof.Machine

/-- The opcode at `pc`, `pc+1`, big-endian; each byte is a checked read of its own, so an out-of-range one reads 0x00 and
emits a `Diag`, and `pc + 1` is not truncated (R60, R43). `pc` does not change. -/
def State.fetch (s : State) : Word × State :=
  let hi := s.memRead s.pc.toNat
  let lo := hi.2.memRead (s.pc.toNat + 1)
  (opcodeOf hi.1 lo.1, lo.2)

/-- One `Step` (R188): nothing on a halted core; otherwise fetch, decode, execute. An unknown opcode is a fatal fault, raised
after the fetch and before anything is written (R151). -/
def coreStep (s : State) : Result :=
  if s.halted then .next s
  else
    let fetched := s.fetch
    match decode fetched.1 with
    | .instr i => exec i fetched.2
    | .unknownOpcode op => .next (fetched.2.raise .unknownOpcode op)

end Sys2Proof.Machine
end

