-- ==== Sys2Proof/WellFormed.lean ====
section
/-! DEFINITION. The checks on data that is not well formed by its type alone. The fields of `Instr` have exactly the widths of
the opcode fields (R61), so EVERY term of `Instr` is well formed and needs no check; what the driver gives to `Load` is a list
of bytes, whose length the spec bounds (R181, R182, R189). -/

namespace Sys2Proof

/-- The font table has exactly 80 bytes (R44, R181). -/
def WellFormed.font (bytes : List Byte) : Bool := bytes.length == Config.fontBytes

/-- The ROM image has at most 3583 bytes; none is too short (R182). -/
def WellFormed.rom (bytes : List Byte) : Bool := bytes.length ≤ Config.romMax

end Sys2Proof
end

