-- ==== Sys2Proof/Machine/Driver.lean ====
section
/-! DEFINITION. The transactions of the timer unit and the driver (spec 60_exceptions.md rules R162 to R166, R171,
44_display.md rules R133, R134, 70_reset_and_hazards.md rules R180 to R182, R189), and the choice of the next transaction
(R185). -/

namespace Sys2Proof.Machine

/-! ## The timer unit -/

/-- `delay` decremented when non-zero (R162). -/
def State.tickDelay (s : State) : State := if s.delay = 0#8 then s else s.setDelay (s.delay - 1#8)

/-- `sound` decremented when non-zero, with one `Beep` where the value after decrementing is 1 (R162, R163). -/
def State.tickSound (s : State) : State :=
  if s.sound = 0#8 then s
  else
    let t := s.setSound (s.sound - 1#8)
    if t.sound = 1#8 then t.emit .beep else t

/-- `Tick` (R162); nothing on a halted core (R171; log entry 13: decision D21). -/
def State.tick (s : State) : State := if s.halted then s else s.tickDelay.tickSound

/-! ## The driver -/

/-- `SetKey(k, pressed)` (R165); nothing on a halted core (R171). -/
def State.setKey (s : State) (k : Fin 16) (pressed : Bool) : State :=
  if s.halted then s else { s with key := s.key.set k.val pressed }

/-- The answer of `IsDirty` (R134), which changes nothing. -/
def State.isDirty (s : State) : Bool := s.dirty

/-- `ClearDirty` (R134); nothing on a halted core (R171). -/
def State.clearDirty (s : State) : State := if s.halted then s else { s with dirty := false }

/-- The answer of `PixelAt(x, y)` (R133), which changes nothing. -/
def State.pixelAt (s : State) (x : Fin 64) (y : Fin 32) : Bool := s.disp.pixel x y

/-- `Reset` (R180): every element of the spec's state at its reset value, out of the halted state too. What the driver issues
next is the driver's, and the random source is not restarted, so `agenda`, `onward` and `draws` stay (log entries 1 and 2). -/
def State.restart (s : State) : State := 
  { State.reset with agenda := s.agenda, onward := s.onward, draws := s.draws }

/-- The state stands directly after `Reset`. -/
def State.atReset (s : State) : Bool := decide (s = s.restart)

/-- The writes of `Load` (R181): FONT from 0x000, then ROM from 0x200. -/
def State.loadImage (s : State) (font rom : List Byte) : State :=
  (s.writeBytes Config.fontBase font).writeBytes Config.romBase rom

/-- `Load(FONT, ROM)` (R181, R182, R189) and the host's duties about it (log entry 17: decisions D18, D25); nothing on a
halted core (R189). -/
def load (font rom : List Byte) (s : State) : Result :=
  if s.halted then .next s
  else if WellFormed.font font = false then .refused (.fontSize font.length)
  else if WellFormed.rom rom = false then .refused (.romTooLarge rom.length)
  else if s.atReset then .next (s.loadImage font rom)
  else .fault .loadOutsideLaunch

/-- The default of the parameter FONT, the table R44 prints (log entry 6: PRESUMED, decision D13, from general knowledge). -/
def defaultFont : List Byte :=
  [0xF0, 0x90, 0x90, 0x90, 0xF0] ++ [0x20, 0x60, 0x20, 0x20, 0x70] ++
  [0xF0, 0x10, 0xF0, 0x80, 0xF0] ++ [0xF0, 0x10, 0xF0, 0x10, 0xF0] ++
  [0x90, 0x90, 0xF0, 0x10, 0x10] ++ [0xF0, 0x80, 0xF0, 0x10, 0xF0] ++
  [0xF0, 0x80, 0xF0, 0x90, 0xF0] ++ [0xF0, 0x10, 0x20, 0x40, 0x40] ++
  [0xF0, 0x90, 0xF0, 0x90, 0xF0] ++ [0xF0, 0x90, 0xF0, 0x10, 0xF0] ++
  [0xF0, 0x90, 0xF0, 0x90, 0x90] ++ [0xE0, 0x90, 0xE0, 0x90, 0xE0] ++
  [0xF0, 0x80, 0x80, 0x80, 0xF0] ++ [0xE0, 0x90, 0x90, 0x90, 0xE0] ++
  [0xF0, 0x80, 0xF0, 0x80, 0xF0] ++ [0xF0, 0x80, 0xF0, 0x80, 0x80]

/-! ## Any transaction, and which comes next -/

/-- The effect of one transaction of R189's table. -/
def transact (t : Transaction) (s : State) : Result :=
  match t with
  | .reset => .next s.restart
  | .load font rom => load font rom s
  | .step => coreStep s
  | .tick => .next s.tick
  | .setKey k pressed => .next (s.setKey k pressed)
  | .isDirty => .next s
  | .clearDirty => .next s.clearDirty
  | .pixelAt _ _ => .next s

/-- The transaction the driver issues next, and the state with it taken off the driver's plan (R185; log entry 1): the first of
`agenda`; where the agenda is empty, as `onward` says: a `Step`, the first of the block, whose rest becomes the agenda, or
the next of the free sequence. -/
def State.choose (s : State) : Transaction × State :=
  match s.agenda, s.onward with
  | t :: rest, _ => (t, { s with agenda := rest })
  | [], .cycle [] => (.step, s)
  | [], .cycle (t :: rest) => (t, { s with agenda := rest })
  | [], .free turn => (Config.schedule turn, { s with onward := .free (turn + 1) })

/-- The effect of the next transaction. -/
def nextTransaction (s : State) : Result := transact s.choose.1 s.choose.2

/-! ## Placing an instruction (log entry 24) -/

/-- The state with a running core whose next transaction is a `Step` that can fetch both bytes of an opcode: `Step`s planned and
nothing else, the fault latch clear, and `pc` moved to 0x200 where no two bytes of memory stand at it. -/
def State.readyToFetch (s : State) : State :=
  { s with agenda := [], onward := .cycle [], halted := false, fault := none,
           pc := if s.pc.toNat + 1 ≤ 0xFFF then s.pc else 0x0200#16 }

/-- The state, made ready to fetch, with an opcode stored at `pc`. -/
def State.placeOpcode (s : State) (op : Word) : State :=
  s.readyToFetch.writeBytes s.readyToFetch.pc.toNat (opcodeBytes op)

end Sys2Proof.Machine
end

