-- ==== Sys2Proof/Machine/Step.lean ====
section
/-! DEFINITION. One step of the machine: one transaction (spec 00_scope.md rule R1). -/

namespace Sys2Proof.Machine

/-- One transaction: the one the driver issues next (R185). -/
def step (s : State) : Host.Outcome State Fault Refusal := Sys2Proof.Machine.nextTransaction s

/-- The state with the instruction whose bits are the low `nbits` bits of `w` stored where the next `step` fetches. It stands
for the driver's `Load` (log entries 5 and 24). -/
def State.withFetchWord (s : State) (nbits w : Nat) : State := s.placeOpcode (BitVec.ofNat 16 (w % 2 ^ nbits))

end Sys2Proof.Machine
end

