-- ==== Sys2Proof/Safety.lean ====
section
/-! DEFINITION. The terms claims use: what a transition leaves unchanged, which diagnostics a block of accesses emits, the
invariant of the machine, the finished state (R187) and the launch premises (R190). -/

namespace Sys2Proof.Machine

/-- The fields of `State`. -/
inductive Field where
  | v | index | pc | stack | sp | delay | sound | mem | disp | dirty | key | halted | fault | events | draws | agenda
    | onward
deriving DecidableEq, Repr

/-- Two states agree on one field; on memory: every address reads the same byte; on registers: every register does. -/
def State.sameField (s t : State) : Field → Prop
  | .v => ∀ r, t.reg r = s.reg r
  | .index => t.index = s.index
  | .pc => t.pc = s.pc
  | .stack => t.stack = s.stack
  | .sp => t.sp = s.sp
  | .delay => t.delay = s.delay
  | .sound => t.sound = s.sound
  | .mem => ∀ a, t.byteAt a = s.byteAt a
  | .disp => ∀ x y, t.pixelAt x y = s.pixelAt x y
  | .dirty => t.dirty = s.dirty
  | .key => t.key = s.key
  | .halted => t.halted = s.halted
  | .fault => t.fault = s.fault
  | .events => t.events = s.events
  | .draws => t.draws = s.draws
  | .agenda => t.agenda = s.agenda
  | .onward => t.onward = s.onward

/-- From `s` to `t` nothing changes but, perhaps, the listed fields (the frame of a transition, R2). -/
def State.SameExcept (s t : State) (changed : List Field) : Prop := ∀ f, f ∉ changed → s.sameField t f

/-- The diagnostics of `count` byte accesses from address `a` upward: one for each address above 0xFFF, in access order
(R48, R152). -/
def diagnostics (kind : AccessKind) (a count : Nat) : List Event :=
  ((List.range' a count).filter (fun k => decide (0xFFF < k))).map (fun k => .diag k kind)

/-- The opcode the next fetch reads: the bytes at `pc` and `pc + 1`, big-endian (R60). -/
def State.opcode (s : State) : Word := opcodeOf (s.byteAt s.pc.toNat) (s.byteAt (s.pc.toNat + 1))

/-- The state a fetch leaves: only diagnostics are added, none where both bytes lie in memory (R60, R41). -/
def State.afterFetch (s : State) : State := { s with events := s.events ++ diagnostics .read s.pc.toNat 2 }

/-- The transactions the driver issues from the state on, in order and without end (R185; log entry 1). -/
def State.planned (s : State) : Nat → Transaction
  | 0 => s.choose.1
  | n + 1 => s.choose.2.planned n

/-- The operands an instruction holds are the fields of the word that its pattern names (R61). -/
def operandsFrom (op : Word) : Instr → Prop
  | .cls | .ret => True
  | .jp nnn | .call nnn | .ldIndex nnn | .jpV0 nnn => nnn = fieldNNN op
  | .seImm x nn | .sneImm x nn | .ldImm x nn | .addImm x nn | .rnd x nn => x = fieldX op ∧ nn = fieldNN op
  | .seReg x y | .sneReg x y | .ldReg x y | .orReg x y | .andReg x y | .xorReg x y | .addReg x y | .subReg x y
  | .subnReg x y => x = fieldX op ∧ y = fieldY op
  | .drw x y n => x = fieldX op ∧ y = fieldY op ∧ n = fieldN op
  | .shr x | .shl x | .skp x | .sknp x | .ldFromDelay x | .ldKey x | .ldDelay x | .ldSound x | .addIndex x | .ldGlyph x
  | .ldBcd x | .storeRegs x | .loadRegs x => x = fieldX op

/-- The sprite `rows` drawn at the origin `(ox, oy)` sets the pixel `(x, y)`, with wrap-around on both axes: the pixel is
`dx` columns and `dy` rows from the origin, `dx` is below 8, and bit `7 - dx` of row `dy` is 1 (R131, R132). -/
def spriteMask (rows : List Byte) (ox oy : Byte) (x : Fin 64) (y : Fin 32) : Bool :=
  let dx := (x.val + 64 - ox.toNat % 64) % 64
  let dy := (y.val + 32 - oy.toNat % 32) % 32
  decide (dx < 8) && (rows.getD dy 0#8).getLsbD (7 - dx)

/-- The invariant of the machine: memory is in its canonical form; the fault record is filled exactly when the core is halted
(R22) and names the address `pc` still holds (R156); `pc` is at most 0x10FE (R13); every slot of the call stack holds the
address of a fetched instruction or its reset value, at most 0x0FFF (R80, R82). -/
structure State.Inv (s : State) : Prop where
  memory : s.mem.wf = true
  latch : s.halted = s.fault.isSome
  record : ∀ r, s.fault = some r → r.pc = s.pc
  counter : s.pc.toNat ≤ 0x10FE
  slots : ∀ k : Fin 16, s.stack[k].toNat ≤ 0x0FFF

/-- A run is safe as long as no fatal fault has halted the core (R156). -/
def State.Safe (s : State) : Prop := s.halted = false

/-- The finished state (R187, decision D19; log entry 22): `pc` holds the address of a jump to itself. -/
def State.Finished (s : State) : Prop :=
  decode s.opcode = .instr (.jp (s.pc.setWidth 12)) ∧ s.pc.toNat ≤ 0x0FFF

/-- `CleanLaunch(FONT, ROM)` (R190): the state that `Reset` followed by `Load(FONT, ROM)` reaches. -/
def State.CleanLaunch (font rom : List Byte) (s : State) : Prop := load font rom s.restart = .next s

/-- `RunnableLaunch(ROM)` (R190): only what no program can do without. -/
def State.RunnableLaunch (rom : List Byte) (s : State) : Prop :=
  s.halted = false ∧ s.pc = 0x0200#16 ∧ s.sp = 0 ∧ ∀ k, (h : k < rom.length) → s.byteAt (Config.romBase + k) = rom[k]

end Sys2Proof.Machine
end

