-- ==== Sys2Proof/Certificates/Slice0/Obligations.lean ====
section
/-! DEFINITION. The statements for the provers, one `def Obligations.<Name> : Prop` each; OBLIGATIONS.json lists them. A
statement about an instruction gives its encoding by mask and match (R65), its completion (the next state of its own effect),
and its frame. Where a statement rests on a decision the spec marks as its own (92_eei_decisions.md), its docstring says so. Two hold
throughout: a frame (`SameExcept`) rests on the frame rule, decision D1 (log entry 15), and `pc + 2`, `pc + 4` are sums in 16
bits, decision D24 (log entry 21), whose wrap no executing `Step` reaches. -/

open Sys2Proof Sys2Proof.Machine

/-! ## Display -/

/-- R130: `00E0` is the single word 0x00E0; it turns all pixels off, marks the display changed, advances by 2, changes nothing
else (`VF` is not written). That no other word decodes to it rests on the spec's decision D9 (log entry 12). -/
def Obligations.ClsTurnsEveryPixelOff : Prop :=
  (∀ op : Word, decode op = .instr .cls ↔ op = 0x00E0#16) ∧
  ∀ s : State, ∃ t, exec .cls s = .next t ∧ (∀ x y, t.pixelAt x y = false) ∧ t.dirty = true ∧ t.pc = s.pc + 2#16 ∧
    s.SameExcept t [.disp, .dirty, .pc]

/-- R131, R132: a draw XORs the sprite mask into the display; `VF` is 1 exactly when mask and old display have a pixel in
common, else 0. Rests on decisions of the spec: the origin is `(V[x], V[y])` (D26), latched before `VF` is written (D2), the
addresses `I + row` are exact sums (D8); log entries 14, 7, 11. -/
def Obligations.DrwXorsSpriteMask : Prop :=
  (∀ op : Word, op &&& 0xF000#16 = 0xD000#16 →
    decode op = .instr (.drw (op.extractLsb' 8 4) (op.extractLsb' 4 4) (op.extractLsb' 0 4))) ∧
  ∀ (x y n : Nibble) (s : State), ∃ t, exec (.drw x y n) s = .next t ∧
    (∀ px py, t.pixelAt px py =
      (s.pixelAt px py ^^
        spriteMask ((List.range n.toNat).map (fun row => s.byteAt (s.index.toNat + row))) (s.reg x) (s.reg y) px py)) ∧
    (t.reg 0xF#4 = 1#8 ↔ ∃ px py, s.pixelAt px py = true ∧ t.pixelAt px py = false) ∧
    (t.reg 0xF#4 = 0#8 ∨ t.reg 0xF#4 = 1#8) ∧
    (∀ r, r ≠ 0xF#4 → t.reg r = s.reg r) ∧ t.dirty = true ∧
    t.events = s.events ++ diagnostics .read s.index.toNat n.toNat ∧ t.pc = s.pc + 2#16 ∧
    s.SameExcept t [.v, .disp, .dirty, .events, .pc]

/-- R132: drawing the same sprite twice at the same origin restores the display; the second origin is the first whenever the
first draw left `V[x]` and `V[y]` alone. Rests on D26 and D8 (log entries 14, 11). -/
def Obligations.DrawingTwiceRestoresDisplay : Prop :=
  ∀ (x y n : Nibble) (s t u : State), exec (.drw x y n) s = .next t → t.reg x = s.reg x → t.reg y = s.reg y →
    exec (.drw x y n) t = .next u → ∀ px py, u.pixelAt px py = s.pixelAt px py

/-! ## Control transfer -/

/-- R80, the case of a stack that is not empty: `00EE` is the single word 0x00EE; it takes one address off the stack and
resumes two bytes after it; the slot is not cleared. The depth representation is the spec's decision D3 (log entry 8); that no other word decodes to it
rests on D9 (log entry 12). -/
def Obligations.RetResumesAfterTheCall : Prop :=
  (∀ op : Word, decode op = .instr .ret ↔ op = 0x00EE#16) ∧
  ∀ (s : State) (k : Fin 16), s.sp.val = k.val + 1 → ∃ t, exec .ret s = .next t ∧ t.sp.val = k.val ∧
    t.pc = s.stack[k] + 2#16 ∧ s.SameExcept t [.sp, .pc]

/-- R81: `1nnn` puts `nnn`, zero-extended, into `pc`. -/
def Obligations.JpTakesPcToItsField : Prop :=
  (∀ op : Word, op &&& 0xF000#16 = 0x1000#16 → decode op = .instr (.jp (op.extractLsb' 0 12))) ∧
  ∀ (nnn : Addr12) (s : State), ∃ t, exec (.jp nnn) s = .next t ∧ t.pc.toNat = nnn.toNat ∧ s.SameExcept t [.pc]

/-- R82, the case of at most fifteen nested calls: `2nnn` stores its own address into the slot at the old depth, adds one to
the depth and takes `pc` to `nnn`. The depth representation is the spec's decision D3 (log entry 8). -/
def Obligations.CallPushesItsOwnAddress : Prop :=
  (∀ op : Word, op &&& 0xF000#16 = 0x2000#16 → decode op = .instr (.call (op.extractLsb' 0 12))) ∧
  ∀ (nnn : Addr12) (s : State) (k : Fin 16), s.sp.val = k.val → ∃ t, exec (.call nnn) s = .next t ∧
    t.sp.val = k.val + 1 ∧ t.stack[k] = s.pc ∧ (∀ j : Fin 16, j ≠ k → t.stack[j] = s.stack[j]) ∧
    t.pc.toNat = nnn.toNat ∧ s.SameExcept t [.stack, .sp, .pc]

/-- R83 and R28: `Bnnn` puts the 16-bit sum of `V[0]` and `nnn` into `pc`, not reduced to 12 bits; above 0x0FFF the next `Step`
of the core raises `UnknownOpcode(0x0000)` (R28 is the spec's inference; log entry 13 for the latch). -/
def Obligations.JpV0AddsRegisterZero : Prop :=
  (∀ op : Word, op &&& 0xF000#16 = 0xB000#16 → decode op = .instr (.jpV0 (op.extractLsb' 0 12))) ∧
  ∀ (nnn : Addr12) (s : State), ∃ t, exec (.jpV0 nnn) s = .next t ∧ t.pc.toNat = (s.reg 0x0#4).toNat + nnn.toNat ∧
    s.SameExcept t [.pc] ∧
    (s.halted = false → 0x0FFF < t.pc.toNat → ∃ u, coreStep t = .next u ∧ u.halted = true ∧
      u.fault = some ⟨.unknownOpcode, 0x0000#16, t.pc⟩)

/-! ## Skips -/

/-- R90, R91: `3xnn` and `4xnn` advance by 4 when `V[x]` is, respectively is not, `nn`, else by 2; nothing else changes. -/
def Obligations.ImmediateSkipsCompare : Prop :=
  (∀ op : Word, op &&& 0xF000#16 = 0x3000#16 → decode op = .instr (.seImm (op.extractLsb' 8 4) (op.extractLsb' 0 8))) ∧
  (∀ op : Word, op &&& 0xF000#16 = 0x4000#16 → decode op = .instr (.sneImm (op.extractLsb' 8 4) (op.extractLsb' 0 8))) ∧
  ∀ (x : Nibble) (nn : Byte) (s : State),
    (∃ t, exec (.seImm x nn) s = .next t ∧ (s.reg x = nn → t.pc = s.pc + 4#16) ∧ (s.reg x ≠ nn → t.pc = s.pc + 2#16) ∧
      s.SameExcept t [.pc]) ∧
    (∃ t, exec (.sneImm x nn) s = .next t ∧ (s.reg x ≠ nn → t.pc = s.pc + 4#16) ∧ (s.reg x = nn → t.pc = s.pc + 2#16) ∧
      s.SameExcept t [.pc])

/-- R92, R93: `5xy0` and `9xy0`, every low nibble, advance by 4 when `V[x]` is, respectively is not, `V[y]`, else by 2; so
`x` = `y` always, respectively never, skips; nothing else changes. -/
def Obligations.RegisterSkipsCompare : Prop :=
  (∀ op : Word, op &&& 0xF000#16 = 0x5000#16 → decode op = .instr (.seReg (op.extractLsb' 8 4) (op.extractLsb' 4 4))) ∧
  (∀ op : Word, op &&& 0xF000#16 = 0x9000#16 → decode op = .instr (.sneReg (op.extractLsb' 8 4) (op.extractLsb' 4 4))) ∧
  ∀ (x y : Nibble) (s : State),
    (∃ t, exec (.seReg x y) s = .next t ∧ (s.reg x = s.reg y → t.pc = s.pc + 4#16) ∧
      (s.reg x ≠ s.reg y → t.pc = s.pc + 2#16) ∧ (x = y → t.pc = s.pc + 4#16) ∧ s.SameExcept t [.pc]) ∧
    (∃ t, exec (.sneReg x y) s = .next t ∧ (s.reg x ≠ s.reg y → t.pc = s.pc + 4#16) ∧
      (s.reg x = s.reg y → t.pc = s.pc + 2#16) ∧ (x = y → t.pc = s.pc + 2#16) ∧ s.SameExcept t [.pc])

/-- R94, R95, the case of a key number up to 15: `Ex9E` and `ExA1` advance by 4 when the key is, respectively is not, pressed,
else by 2; nothing else changes. A larger key number is the spec's decision D6, stated in `KeyNumberAbove15IsAFault`. -/
def Obligations.KeySkipsSampleTheKey : Prop :=
  (∀ op : Word, op &&& 0xF0FF#16 = 0xE09E#16 → decode op = .instr (.skp (op.extractLsb' 8 4))) ∧
  (∀ op : Word, op &&& 0xF0FF#16 = 0xE0A1#16 → decode op = .instr (.sknp (op.extractLsb' 8 4))) ∧
  ∀ (x : Nibble) (s : State) (k : Fin 16), (s.reg x).toNat = k.val →
    (∃ t, exec (.skp x) s = .next t ∧ t.pc = s.pc + (if s.key[k] then 4#16 else 2#16) ∧ s.SameExcept t [.pc]) ∧
    (∃ t, exec (.sknp x) s = .next t ∧ t.pc = s.pc + (if s.key[k] then 2#16 else 4#16) ∧ s.SameExcept t [.pc])

/-! ## Load, arithmetic, logic, shift, random -/

/-- R102, R103: `6xnn` writes `nn`, `7xnn` adds it modulo 256; neither writes another register, so `VF` keeps its value unless
it is the destination. -/
def Obligations.ImmediateLoadAndAdd : Prop :=
  (∀ op : Word, op &&& 0xF000#16 = 0x6000#16 → decode op = .instr (.ldImm (op.extractLsb' 8 4) (op.extractLsb' 0 8))) ∧
  (∀ op : Word, op &&& 0xF000#16 = 0x7000#16 → decode op = .instr (.addImm (op.extractLsb' 8 4) (op.extractLsb' 0 8))) ∧
  ∀ (x : Nibble) (nn : Byte) (s : State),
    (∃ t, exec (.ldImm x nn) s = .next t ∧ t.reg x = nn ∧ (∀ r, r ≠ x → t.reg r = s.reg r) ∧ t.pc = s.pc + 2#16 ∧
      s.SameExcept t [.v, .pc]) ∧
    (∃ t, exec (.addImm x nn) s = .next t ∧ (t.reg x).toNat = ((s.reg x).toNat + nn.toNat) % 256 ∧
      (∀ r, r ≠ x → t.reg r = s.reg r) ∧ t.pc = s.pc + 2#16 ∧ s.SameExcept t [.v, .pc])

/-- R104 to R107: copy, or, and, exclusive or; `VF` is not written unless it is the destination. -/
def Obligations.CopyAndLogicLeaveTheFlag : Prop :=
  (∀ op : Word, op &&& 0xF00F#16 = 0x8000#16 → decode op = .instr (.ldReg (op.extractLsb' 8 4) (op.extractLsb' 4 4))) ∧
  (∀ op : Word, op &&& 0xF00F#16 = 0x8001#16 → decode op = .instr (.orReg (op.extractLsb' 8 4) (op.extractLsb' 4 4))) ∧
  (∀ op : Word, op &&& 0xF00F#16 = 0x8002#16 → decode op = .instr (.andReg (op.extractLsb' 8 4) (op.extractLsb' 4 4))) ∧
  (∀ op : Word, op &&& 0xF00F#16 = 0x8003#16 → decode op = .instr (.xorReg (op.extractLsb' 8 4) (op.extractLsb' 4 4))) ∧
  ∀ (x y : Nibble) (s : State), ∀ q ∈ [(Instr.ldReg x y, s.reg y), (.orReg x y, s.reg x ||| s.reg y),
      (.andReg x y, s.reg x &&& s.reg y), (.xorReg x y, s.reg x ^^^ s.reg y)],
    ∃ t, exec q.1 s = .next t ∧ t.reg x = q.2 ∧ (∀ r, r ≠ x → t.reg r = s.reg r) ∧ t.pc = s.pc + 2#16 ∧
      s.SameExcept t [.v, .pc]

/-- R108: `8xy4` writes the carry of the exact sum into `VF` and then the sum modulo 256 into `V[x]`. -/
def Obligations.AddSetsCarryThenSum : Prop :=
  (∀ op : Word, op &&& 0xF00F#16 = 0x8004#16 → decode op = .instr (.addReg (op.extractLsb' 8 4) (op.extractLsb' 4 4))) ∧
  ∀ (x y : Nibble) (s : State), ∃ t, exec (.addReg x y) s = .next t ∧
    (t.reg x).toNat = ((s.reg x).toNat + (s.reg y).toNat) % 256 ∧
    (x ≠ 0xF#4 → t.reg 0xF#4 = if 255 < (s.reg x).toNat + (s.reg y).toNat then 1#8 else 0#8) ∧
    (∀ r, r ≠ x → r ≠ 0xF#4 → t.reg r = s.reg r) ∧ t.pc = s.pc + 2#16 ∧ s.SameExcept t [.v, .pc]

/-- R109, R111: `8xy5` and `8xy7` write 1 into `VF` exactly when the minuend is strictly greater, then the difference modulo 256
into `V[x]`. That the operands are latched first, which matters where `x` or `y` is 0xF, is the spec's decision D2 (log
entry 7). -/
def Obligations.SubtractSetsStrictlyGreater : Prop :=
  (∀ op : Word, op &&& 0xF00F#16 = 0x8005#16 → decode op = .instr (.subReg (op.extractLsb' 8 4) (op.extractLsb' 4 4))) ∧
  (∀ op : Word, op &&& 0xF00F#16 = 0x8007#16 → decode op = .instr (.subnReg (op.extractLsb' 8 4) (op.extractLsb' 4 4))) ∧
  ∀ (x y : Nibble) (s : State), ∀ q ∈ [(Instr.subReg x y, s.reg x, s.reg y), (.subnReg x y, s.reg y, s.reg x)],
    ∃ t, exec q.1 s = .next t ∧ (t.reg x).toNat = (q.2.1.toNat + 256 - q.2.2.toNat) % 256 ∧
      (x ≠ 0xF#4 → t.reg 0xF#4 = if q.2.2.toNat < q.2.1.toNat then 1#8 else 0#8) ∧
      (∀ r, r ≠ x → r ≠ 0xF#4 → t.reg r = s.reg r) ∧ t.pc = s.pc + 2#16 ∧ s.SameExcept t [.v, .pc]

/-- R110, R112, R69: `8xy6` and `8xyE`, whatever their `y` bits, shift `V[x]` by one and put the bit shifted out into `VF`
first. That `V[x]` is latched before `VF` is written is the spec's decision D2 (log entry 7). -/
def Obligations.ShiftsMoveTheBitOutToTheFlag : Prop :=
  (∀ op : Word, op &&& 0xF00F#16 = 0x8006#16 → decode op = .instr (.shr (op.extractLsb' 8 4))) ∧
  (∀ op : Word, op &&& 0xF00F#16 = 0x800E#16 → decode op = .instr (.shl (op.extractLsb' 8 4))) ∧
  ∀ (x : Nibble) (s : State),
    (∃ t, exec (.shr x) s = .next t ∧ (t.reg x).toNat = (s.reg x).toNat / 2 ∧
      (x ≠ 0xF#4 → (t.reg 0xF#4).toNat = (s.reg x).toNat % 2) ∧
      (∀ r, r ≠ x → r ≠ 0xF#4 → t.reg r = s.reg r) ∧ t.pc = s.pc + 2#16 ∧ s.SameExcept t [.v, .pc]) ∧
    (∃ t, exec (.shl x) s = .next t ∧ (t.reg x).toNat = (s.reg x).toNat * 2 % 256 ∧
      (x ≠ 0xF#4 → (t.reg 0xF#4).toNat = (s.reg x).toNat / 128) ∧
      (∀ r, r ≠ x → r ≠ 0xF#4 → t.reg r = s.reg r) ∧ t.pc = s.pc + 2#16 ∧ s.SameExcept t [.v, .pc])

/-- R113, R23: `Cxnn` writes the AND of `nn` and one fresh random byte into `V[x]`, so no bit outside `nn` is ever set; `VF` is
not written unless it is the destination. The random byte is the free value of log entry 2 (D14), counted by `draws`; the
statement holds whatever byte it is. -/
def Obligations.RndMasksOneFreshByte : Prop :=
  (∀ op : Word, op &&& 0xF000#16 = 0xC000#16 → decode op = .instr (.rnd (op.extractLsb' 8 4) (op.extractLsb' 0 8))) ∧
  ∀ (x : Nibble) (nn : Byte) (s : State), ∃ t, exec (.rnd x nn) s = .next t ∧
    t.reg x = Config.randomByte s.draws &&& nn ∧ t.reg x &&& ~~~nn = 0#8 ∧ t.draws = s.draws + 1 ∧
    (∀ r, r ≠ x → t.reg r = s.reg r) ∧ t.pc = s.pc + 2#16 ∧ s.SameExcept t [.v, .draws, .pc]

/-! ## Index register and memory -/

/-- R120, R122: `Annn` puts `nnn` into `I`; `Fx29` puts five times the whole value `V[x]` into `I`, without wrap. -/
def Obligations.IndexTakesFieldOrGlyphAddress : Prop :=
  (∀ op : Word, op &&& 0xF000#16 = 0xA000#16 → decode op = .instr (.ldIndex (op.extractLsb' 0 12))) ∧
  (∀ op : Word, op &&& 0xF0FF#16 = 0xF029#16 → decode op = .instr (.ldGlyph (op.extractLsb' 8 4))) ∧
  (∀ (nnn : Addr12) (s : State), ∃ t, exec (.ldIndex nnn) s = .next t ∧ t.index.toNat = nnn.toNat ∧ t.pc = s.pc + 2#16 ∧
    s.SameExcept t [.index, .pc]) ∧
  ∀ (x : Nibble) (s : State), ∃ t, exec (.ldGlyph x) s = .next t ∧ t.index.toNat = 5 * (s.reg x).toNat ∧
    t.pc = s.pc + 2#16 ∧ s.SameExcept t [.index, .pc]

/-- R121: `Fx1E` adds `V[x]` to `I` in 16 bits and writes no flag. That the sum wraps modulo 65536 is the spec's decision D7 (log
entry 10). -/
def Obligations.IndexAddWrapsWithoutFlag : Prop :=
  (∀ op : Word, op &&& 0xF0FF#16 = 0xF01E#16 → decode op = .instr (.addIndex (op.extractLsb' 8 4))) ∧
  ∀ (x : Nibble) (s : State), ∃ t, exec (.addIndex x) s = .next t ∧
    t.index.toNat = (s.index.toNat + (s.reg x).toNat) % 65536 ∧ t.pc = s.pc + 2#16 ∧ s.SameExcept t [.index, .pc]

/-- R123: `Fx33` stores the hundreds, tens and units of `V[x]` at `I`, `I+1`, `I+2`, each where it lies in memory, with a
diagnostic for each that does not; every other byte reads as before, and `I` is unchanged. That the sums are exact is the
spec's decision D8 (log entry 11). -/
def Obligations.BcdStoresThreeDigits : Prop :=
  (∀ op : Word, op &&& 0xF0FF#16 = 0xF033#16 → decode op = .instr (.ldBcd (op.extractLsb' 8 4))) ∧
  ∀ (x : Nibble) (s : State), s.mem.wf = true → ∃ t, exec (.ldBcd x) s = .next t ∧
    (s.index.toNat ≤ 0xFFF → (t.byteAt s.index.toNat).toNat = (s.reg x).toNat / 100) ∧
    (s.index.toNat + 1 ≤ 0xFFF → (t.byteAt (s.index.toNat + 1)).toNat = (s.reg x).toNat / 10 % 10) ∧
    (s.index.toNat + 2 ≤ 0xFFF → (t.byteAt (s.index.toNat + 2)).toNat = (s.reg x).toNat % 10) ∧
    (∀ a, a < s.index.toNat ∨ s.index.toNat + 2 < a → t.byteAt a = s.byteAt a) ∧
    t.events = s.events ++ diagnostics .write s.index.toNat 3 ∧ t.pc = s.pc + 2#16 ∧
    s.SameExcept t [.mem, .events, .pc]

/-- R124: `Fx55` stores `V[0]` to `V[x]` inclusive at `I` upward, each where its address lies in memory, with a diagnostic for
each that does not; every other byte reads as before, and `I` is unchanged. That the sums are exact is the spec's decision
D8 (log entry 11). -/
def Obligations.StoreRegistersFillsTheBlock : Prop :=
  (∀ op : Word, op &&& 0xF0FF#16 = 0xF055#16 → decode op = .instr (.storeRegs (op.extractLsb' 8 4))) ∧
  ∀ (x : Nibble) (s : State), s.mem.wf = true → ∃ t, exec (.storeRegs x) s = .next t ∧
    (∀ r : Nibble, r.toNat ≤ x.toNat → s.index.toNat + r.toNat ≤ 0xFFF → t.byteAt (s.index.toNat + r.toNat) = s.reg r) ∧
    (∀ a, a < s.index.toNat ∨ s.index.toNat + x.toNat < a → t.byteAt a = s.byteAt a) ∧
    t.events = s.events ++ diagnostics .write s.index.toNat (x.toNat + 1) ∧ t.pc = s.pc + 2#16 ∧
    s.SameExcept t [.mem, .events, .pc]

/-- R125: `Fx65` loads `V[0]` to `V[x]` inclusive from `I` upward, 0x00 with a diagnostic for each address above 0xFFF; the
registers above `x`, `I` and memory are unchanged. That the sums are exact is the spec's decision D8 (log entry 11). -/
def Obligations.LoadRegistersReadsTheBlock : Prop :=
  (∀ op : Word, op &&& 0xF0FF#16 = 0xF065#16 → decode op = .instr (.loadRegs (op.extractLsb' 8 4))) ∧
  ∀ (x : Nibble) (s : State), ∃ t, exec (.loadRegs x) s = .next t ∧
    (∀ r : Nibble, r.toNat ≤ x.toNat → s.index.toNat + r.toNat ≤ 0xFFF → t.reg r = s.byteAt (s.index.toNat + r.toNat)) ∧
    (∀ r : Nibble, r.toNat ≤ x.toNat → 0xFFF < s.index.toNat + r.toNat → t.reg r = 0x00#8) ∧
    (∀ r : Nibble, x.toNat < r.toNat → t.reg r = s.reg r) ∧
    t.events = s.events ++ diagnostics .read s.index.toNat (x.toNat + 1) ∧ t.pc = s.pc + 2#16 ∧
    s.SameExcept t [.v, .events, .pc]

/-- R125's property: `Fx55` and then `Fx65` with the same `x` and `I` read back the registers stored, whatever happened to the
registers in between, whenever the block lies in memory. Rests on D8 as those two do (log entry 11). -/
def Obligations.StoreThenLoadRoundTrips : Prop :=
  ∀ (x : Nibble) (s t t' u : State), s.mem.wf = true → s.index.toNat + x.toNat ≤ 0xFFF →
    exec (.storeRegs x) s = .next t → t'.index = t.index → (∀ a, t'.byteAt a = t.byteAt a) →
    exec (.loadRegs x) t' = .next u → ∀ r : Nibble, r.toNat ≤ x.toNat → u.reg r = s.reg r

/-! ## Timers and keys -/

/-- R140: `Fx07` writes `delay` into `V[x]`; nothing else but `pc` changes. -/
def Obligations.DelayTimerIsReadIntoRegister : Prop :=
  (∀ op : Word, op &&& 0xF0FF#16 = 0xF007#16 → decode op = .instr (.ldFromDelay (op.extractLsb' 8 4))) ∧
  ∀ (x : Nibble) (s : State), ∃ t, exec (.ldFromDelay x) s = .next t ∧ t.reg x = s.delay ∧
    (∀ r, r ≠ x → t.reg r = s.reg r) ∧ t.pc = s.pc + 2#16 ∧ s.SameExcept t [.v, .pc]

/-- R141: `Fx0A` writes the highest pressed key's number into `V[x]` and advances by 2; with no key pressed nothing at all
changes, so the next `Step` executes the same instruction again. -/
def Obligations.KeyWaitTakesTheHighestKeyOrStalls : Prop :=
  (∀ op : Word, op &&& 0xF0FF#16 = 0xF00A#16 → decode op = .instr (.ldKey (op.extractLsb' 8 4))) ∧
  (∀ (x : Nibble) (s : State) (k : Fin 16), s.key[k] = true → (∀ j : Fin 16, k < j → s.key[j] = false) →
    ∃ t, exec (.ldKey x) s = .next t ∧ (t.reg x).toNat = k.val ∧ (∀ r, r ≠ x → t.reg r = s.reg r) ∧
      t.pc = s.pc + 2#16 ∧ s.SameExcept t [.v, .pc]) ∧
  ∀ (x : Nibble) (s : State), (∀ j : Fin 16, s.key[j] = false) → exec (.ldKey x) s = .next s

/-- R142: `Fx15` writes `V[x]` into `delay`; nothing else but `pc` changes. -/
def Obligations.DelayTimerIsSetFromRegister : Prop :=
  (∀ op : Word, op &&& 0xF0FF#16 = 0xF015#16 → decode op = .instr (.ldDelay (op.extractLsb' 8 4))) ∧
  ∀ (x : Nibble) (s : State), ∃ t, exec (.ldDelay x) s = .next t ∧ t.delay = s.reg x ∧ t.pc = s.pc + 2#16 ∧
    s.SameExcept t [.delay, .pc]

/-- R143: `Fx18` writes `V[x]` into `sound` and emits no `Beep` itself; on a running core the ticks that follow emit exactly one,
at the (`V[x]` - 1)-th, where `V[x]` is at least 2, and none otherwise. -/
def Obligations.SoundTimerIsSetAndBeepsOnce : Prop :=
  (∀ op : Word, op &&& 0xF0FF#16 = 0xF018#16 → decode op = .instr (.ldSound (op.extractLsb' 8 4))) ∧
  ∀ (x : Nibble) (s : State), ∃ t, exec (.ldSound x) s = .next t ∧ t.sound = s.reg x ∧ t.pc = s.pc + 2#16 ∧
    s.SameExcept t [.sound, .pc] ∧
    (s.halted = false → ∀ n, (State.tick^[n] t).events =
      s.events ++ (if 2 ≤ (s.reg x).toNat ∧ (s.reg x).toNat - 1 ≤ n then [.beep] else []))

/-- R162: on a running core `Tick` decrements each timer that is not 0, leaves one that is, emits one `Beep` exactly when `sound`
goes from 2 to 1, and touches nothing else. A halted core is the spec's decision D21, stated in `HaltedCoreIsFrozen`. -/
def Obligations.TickDecrementsBothTimers : Prop :=
  ∀ s : State, s.halted = false → ∃ t, transact .tick s = .next t ∧ t.delay.toNat = s.delay.toNat - 1 ∧
    t.sound.toNat = s.sound.toNat - 1 ∧ t.events = s.events ++ (if s.sound = 2#8 then [.beep] else []) ∧
    s.SameExcept t [.delay, .sound, .events]

/-- R163: no instruction emits a `Beep`: every event an instruction adds is a diagnostic, and no event is ever taken back. That
events are kept as a history is the model's choice (log entry 16). -/
def Obligations.NoInstructionBeeps : Prop :=
  ∀ (i : Instr) (s t : State), exec i s = .next t → ∃ added, t.events = s.events ++ added ∧ .beep ∉ added

/-! ## Driver -/

/-- R165, R134, R133, on a running core: `SetKey` writes one key flag, `ClearDirty` clears `dirty`; `IsDirty` and `PixelAt` change
nothing, and their answers are the flag and the pixel. That a halted core ignores the first two is D21, stated in
`HaltedCoreIsFrozen`. -/
def Obligations.DriverTransactionsTouchOnlyTheirFlag : Prop :=
  (∀ (s : State) (k : Fin 16) (pressed : Bool), s.halted = false → ∃ t, transact (.setKey k pressed) s = .next t ∧
    t.key[k] = pressed ∧ (∀ j : Fin 16, j ≠ k → t.key[j] = s.key[j]) ∧ s.SameExcept t [.key]) ∧
  (∀ s : State, s.halted = false → ∃ t, transact .clearDirty s = .next t ∧ t.isDirty = false ∧ s.SameExcept t [.dirty]) ∧
  ∀ s : State, transact .isDirty s = .next s ∧ s.isDirty = s.dirty ∧
    ∀ x y, transact (.pixelAt x y) s = .next s ∧ s.pixelAt x y = (s.disp[y])[x]

/-- R26, R180: what reset leaves. The values are the spec's decisions D11 and D12 (log entries 3 and 4); the model's own fields
`draws`, `agenda` and `onward` are left out (log entries 1 and 2). -/
def Obligations.ResetLeavesTheStatedValues : Prop :=
  (∀ r, State.reset.reg r = 0#8) ∧ State.reset.index = 0#16 ∧ State.reset.pc = 0x0200#16 ∧ State.reset.sp.val = 0 ∧
  (∀ k : Fin 16, State.reset.stack[k] = 0#16) ∧ State.reset.delay = 0#8 ∧ State.reset.sound = 0#8 ∧
  (∀ a, State.reset.byteAt a = 0#8) ∧ (∀ x y, State.reset.pixelAt x y = false) ∧ State.reset.dirty = false ∧
  (∀ k : Fin 16, State.reset.key[k] = false) ∧ State.reset.halted = false ∧ State.reset.fault = none ∧
  State.reset.events = []

/-- R180, R157: the `Reset` transaction takes every state, a halted one too, to the reset values, keeping only the model's own
`agenda`, `onward` and `draws` (log entries 1 and 2; the values are D11 and D12, log entries 3 and 4). -/
def Obligations.ResetTransactionRestoresEverything : Prop :=
  ∀ s : State, ∃ t, transact .reset s = .next t ∧ State.reset.SameExcept t [.draws, .agenda, .onward] ∧
    t.draws = s.draws ∧ t.agenda = s.agenda ∧ t.onward = s.onward

/-- R27, R181, R182: after `Reset`, `Load` puts FONT at 0x000 and ROM at 0x200; every other byte is 0 (D12), and nothing but memory
changes. The limit on ROM is D25 (log entry 17). -/
def Obligations.LoadPlacesFontAndRom : Prop :=
  ∀ (font rom : List Byte) (s : State), font.length = 80 → rom.length ≤ 3583 →
    ∃ t, transact (.load font rom) s.restart = .next t ∧
      (∀ a, t.byteAt a = if h : a < font.length then font[a]
        else if h : 0x200 ≤ a ∧ a - 0x200 < rom.length then rom[a - 0x200] else 0#8) ∧
      s.restart.SameExcept t [.mem]

/-- R182: a ROM image of more than 3583 bytes is refused on a running core (D18, D25; log entry 17). -/
def Obligations.OversizedRomIsRefused : Prop :=
  ∀ (font rom : List Byte) (s : State), s.halted = false → font.length = 80 → 3583 < rom.length →
    transact (.load font rom) s = .refused (.romTooLarge rom.length)

/-! ## Memory -/

/-- R41: a read up to 0xFFF returns the byte in memory and changes nothing; a read above returns 0x00, emits a diagnostic, and
changes nothing else. -/
def Obligations.CheckedReadNeverFails : Prop :=
  ∀ (s : State) (a : Nat),
    (a ≤ 0xFFF → s.memRead a = (s.mem.get a, s)) ∧
    (0xFFF < a → (s.memRead a).1 = 0x00#8 ∧ (s.memRead a).2.events = s.events ++ [.diag a .read] ∧
      s.SameExcept (s.memRead a).2 [.events])

/-- R42: a write up to 0xFFF is read back at its address and nowhere else and emits nothing; a write above is dropped with a
diagnostic. Either way the canonical form of memory is kept, under which the first is stated. -/
def Obligations.CheckedWriteIsReadBackOrDropped : Prop :=
  ∀ (s : State) (a : Nat) (b : Byte), s.mem.wf = true →
    (s.memWrite a b).mem.wf = true ∧
    (a ≤ 0xFFF → (s.memWrite a b).byteAt a = b ∧ (∀ a', a' ≠ a → (s.memWrite a b).byteAt a' = s.byteAt a') ∧
      s.SameExcept (s.memWrite a b) [.mem]) ∧
    (0xFFF < a → (s.memWrite a b).events = s.events ++ [.diag a .write] ∧ s.SameExcept (s.memWrite a b) [.events])

/-! ## Encoding -/

/-- Decode and encode agree, for every instruction with every operand value, on words and on bytes. -/
def Obligations.DecodeOfEncodeIsTheInstruction : Prop :=
  ∀ i : Instr, decode (encode i) = .instr i ∧
    (∀ rest, decodeBytes (opcodeBytes (encode i) ++ rest) = some (.instr i, rest)) ∧
    decodeTableWord 16 (encode i).toNat = some i

/-- R65: a word decodes to an instruction of the row that selects it (`op AND mask` is `match`), a word no row selects is
unknown, and no word belongs to two rows. The rows of group 0, a whole word each, are the spec's decision D9 (log entry 12). -/
def Obligations.DecodeFollowsTheOpcodeMap : Prop :=
  (∀ (op : Word) (i : Instr), decode op = .instr i → (rowOf i).selects op = true) ∧
  (∀ (op : Word) (i : Instr), (rowOf i).selects op = true → ∃ j, decode op = .instr j ∧ rowOf j = rowOf i) ∧
  (∀ op : Word, (∀ i, (rowOf i).selects op = false) → decode op = .unknownOpcode op) ∧
  ∀ (op : Word) (i j : Instr), (rowOf i).selects op = true → (rowOf j).selects op = true → rowOf i = rowOf j

/-- R66: the unknown words, group by group. That group 0 is matched on the whole word is the spec's decision D9 (log entry
12). -/
def Obligations.UnknownWordsAreExactlyTheListed : Prop :=
  ∀ op : Word, decode op = .unknownOpcode op ↔
    (op.extractLsb' 12 4 = 0x0#4 ∧ op ≠ 0x00E0#16 ∧ op ≠ 0x00EE#16) ∨
    (op.extractLsb' 12 4 = 0x8#4 ∧ op.extractLsb' 0 4 ∈ [0x8#4, 0x9#4, 0xA#4, 0xB#4, 0xC#4, 0xD#4, 0xF#4]) ∨
    (op.extractLsb' 12 4 = 0xE#4 ∧ op.extractLsb' 0 8 ∉ [0x9E#8, 0xA1#8]) ∨
    (op.extractLsb' 12 4 = 0xF#4 ∧
      op.extractLsb' 0 8 ∉ [0x07#8, 0x0A#8, 0x15#8, 0x18#8, 0x1E#8, 0x29#8, 0x33#8, 0x55#8, 0x65#8])

/-- A few words written out from the spec's encodings (95_test_vectors.md E1 to E12). -/
def Obligations.SampleWordsDecodeAsPrinted : Prop :=
  decode 0x00E0#16 = .instr .cls ∧ decode 0x00EE#16 = .instr .ret ∧ decode 0x1ABC#16 = .instr (.jp 0xABC#12) ∧
  decode 0x6A2B#16 = .instr (.ldImm 0xA#4 0x2B#8) ∧ decode 0x8AB4#16 = .instr (.addReg 0xA#4 0xB#4) ∧
  decode 0x812E#16 = .instr (.shl 0x1#4) ∧ decode 0x512F#16 = .instr (.seReg 0x1#4 0x2#4) ∧
  decode 0x9AB7#16 = .instr (.sneReg 0xA#4 0xB#4) ∧ decode 0xD125#16 = .instr (.drw 0x1#4 0x2#4 0x5#4) ∧
  decode 0xE29E#16 = .instr (.skp 0x2#4) ∧ decode 0xF365#16 = .instr (.loadRegs 0x3#4) ∧
  decode 0xBFFF#16 = .instr (.jpV0 0xFFF#12)

/-! ## One step -/

/-- R188, R60: where the driver issues a `Step` next (`State.choose`, the model's own, log entry 1), a running core's step
executes the instruction that the two bytes at `pc` decode to, big-endian: at the state with that `Step` taken off the
driver's plan where both bytes lie in memory, and with one read diagnostic added where the second is at 0x1000. -/
def Obligations.StepRunsTheDecodedInstruction : Prop :=
  ∀ (s : State) (i : Instr), s.choose.1 = .step → s.halted = false →
    decode (opcodeOf (s.byteAt s.pc.toNat) (s.byteAt (s.pc.toNat + 1))) = .instr i →
    (s.pc.toNat < 0xFFF → step s = exec i s.choose.2) ∧
    (s.pc.toNat = 0xFFF → step s = exec i (s.choose.2.emit (.diag 0x1000 .read))) ∧ s.pc.toNat ≤ 0xFFF

/-- Which transaction a step serves (the driver's plan is the model's own, log entry 1; R185): the first of the agenda, taken off
it; with an empty agenda a `Step`, the first of the repeated block, whose rest becomes the agenda, or the next of the free
sequence. -/
def Obligations.StepServesTheAgendaInOrder : Prop :=
  (∀ s : State, s.agenda = [] → s.onward = .cycle [] → step s = transact .step s) ∧
  (∀ (s : State) (t : Transaction) (rest : List Transaction), s.agenda = t :: rest →
    step s = transact t { s with agenda := rest }) ∧
  (∀ (s : State) (t : Transaction) (rest : List Transaction), s.agenda = [] → s.onward = .cycle (t :: rest) →
    step s = transact t { s with agenda := rest }) ∧
  ∀ (s : State) (turn : Nat), s.agenda = [] → s.onward = .free turn →
    step s = transact (Config.schedule turn) { s with onward := .free (turn + 1) }

/-- R156, R151: on an unknown word a running core's `Step` is a next state in which the latch holds the code, the word and `pc`,
and nothing else changes but the fetch's own diagnostics. The latch is the spec's decision D10 (log entry 13). -/
def Obligations.UnknownOpcodeFillsTheFaultLatch : Prop :=
  ∀ (s : State) (op : Word), s.halted = false →
    decode (opcodeOf (s.byteAt s.pc.toNat) (s.byteAt (s.pc.toNat + 1))) = .unknownOpcode op →
    ∃ t, transact .step s = .next t ∧ t.halted = true ∧ t.fault = some ⟨.unknownOpcode, op, s.pc⟩ ∧
      op = opcodeOf (s.byteAt s.pc.toNat) (s.byteAt (s.pc.toNat + 1)) ∧
      t.events = s.events ++ diagnostics .read s.pc.toNat 2 ∧ s.SameExcept t [.halted, .fault, .events]

/-- R28 (the spec's inference): above 0x0FFF nothing executes: the `Step` raises `UnknownOpcode(0x0000)` after two read
diagnostics. The latch is D10 (log entry 13). -/
def Obligations.NothingExecutesAbove0FFF : Prop :=
  ∀ s : State, s.halted = false → 0x0FFF < s.pc.toNat →
    ∃ t, transact .step s = .next t ∧ t.halted = true ∧ t.fault = some ⟨.unknownOpcode, 0x0000#16, s.pc⟩ ∧
      t.events = s.events ++ [.diag s.pc.toNat .read, .diag (s.pc.toNat + 1) .read] ∧
      s.SameExcept t [.halted, .fault, .events]

/-- R153, R154: the 17th nested call and the return with an empty stack enter the fault, with the word and `pc` recorded and
nothing else changed. Decisions D4, D5 and D10 of the spec (log entries 9 and 13). -/
def Obligations.StackOverrunsAreFaults : Prop :=
  (∀ (nnn : Addr12) (s : State), s.sp.val = 16 → ∃ t, exec (.call nnn) s = .next t ∧ t.halted = true ∧
    t.fault = some ⟨.stackOverflow, encode (.call nnn), s.pc⟩ ∧ s.SameExcept t [.halted, .fault]) ∧
  ∀ s : State, s.sp.val = 0 → ∃ t, exec .ret s = .next t ∧ t.halted = true ∧
    t.fault = some ⟨.stackUnderflow, 0x00EE#16, s.pc⟩ ∧ s.SameExcept t [.halted, .fault]

/-- R155: a key number above 15 enters the fault, with the word and `pc` recorded and nothing else changed. Decisions D6 and D10
of the spec (log entries 9 and 13). -/
def Obligations.KeyNumberAbove15IsAFault : Prop :=
  ∀ (x : Nibble) (s : State), 15 < (s.reg x).toNat → ∀ i ∈ [Instr.skp x, .sknp x],
    ∃ t, exec i s = .next t ∧ t.halted = true ∧ t.fault = some ⟨.keyIndexOutOfRange, encode i, s.pc⟩ ∧
      s.SameExcept t [.halted, .fault]

/-- R156, R158: whenever an instruction halts a running core, nothing of it is committed but the latch, whose record names one of
the three faults, by the instruction that raises it, with its word and `pc`. Decision D10 of the spec (log entry 13). -/
def Obligations.FaultsArePrecise : Prop :=
  ∀ (i : Instr) (s t : State), exec i s = .next t → s.halted = false → t.halted = true →
    s.SameExcept t [.halted, .fault] ∧
    ((i = .ret ∧ s.sp.val = 0 ∧ t.fault = some ⟨.stackUnderflow, encode i, s.pc⟩) ∨
     ((∃ nnn, i = .call nnn) ∧ s.sp.val = 16 ∧ t.fault = some ⟨.stackOverflow, encode i, s.pc⟩) ∨
     ((∃ x, (i = .skp x ∨ i = .sknp x) ∧ 15 < (s.reg x).toNat) ∧
       t.fault = some ⟨.keyIndexOutOfRange, encode i, s.pc⟩))

/-- R171, R189: on a halted core every transaction but `Reset` leaves the whole state as it is. Decision D21 of the spec (log
entry 13). -/
def Obligations.HaltedCoreIsFrozen : Prop :=
  ∀ (s : State) (t : Transaction), s.halted = true → t ≠ .reset → transact t s = .next s

/-- R157: a step leaves the halted state only by serving a `Reset`; any other step of a halted core takes one transaction off the
driver's plan and changes nothing else. Rests on D10 and D21 (log entry 13) and on the plan (log entry 1). -/
def Obligations.OnlyResetLeavesTheHaltedState : Prop :=
  ∀ s t : State, s.halted = true → step s = .next t →
    (s.choose.1 = .reset ∧ t.halted = false) ∨
      t = { s with agenda := s.choose.2.agenda, onward := s.choose.2.onward }

/-! ## The whole machine -/

/-- Every instruction completes: `exec` answers a next state for every instruction and every state. -/
def Obligations.EveryInstructionAnswersANextState : Prop :=
  ∀ (i : Instr) (s : State), ∃ t, exec i s = .next t

/-- A step stops only in serving a `Load` (log entry 17). -/
def Obligations.OnlyLoadCanStopARun : Prop :=
  ∀ s : State, (∀ font rom, s.choose.1 ≠ .load font rom) → ∃ t, step s = .next t

/-- R2: which instructions write what: `I` only `Annn`, `Fx1E`, `Fx29`; the timers only `Fx15`, `Fx18`; the stack only `2nnn`, its
depth also `00EE`; memory only `Fx33`, `Fx55`; the display and `dirty` only `00E0`, `Dxyn`; no instruction writes a key flag.
That the listed effects are the complete list is the spec's decision D1 (log entry 15). -/
def Obligations.EachFieldHasOnlyItsWriters : Prop :=
  ∀ (i : Instr) (s t : State), exec i s = .next t →
    ((∀ nnn, i ≠ .ldIndex nnn) → (∀ x, i ≠ .addIndex x) → (∀ x, i ≠ .ldGlyph x) → t.index = s.index) ∧
    ((∀ x, i ≠ .ldDelay x) → t.delay = s.delay) ∧ ((∀ x, i ≠ .ldSound x) → t.sound = s.sound) ∧
    ((∀ nnn, i ≠ .call nnn) → t.stack = s.stack) ∧ ((∀ nnn, i ≠ .call nnn) → i ≠ .ret → t.sp = s.sp) ∧
    ((∀ x, i ≠ .ldBcd x) → (∀ x, i ≠ .storeRegs x) → ∀ a, t.byteAt a = s.byteAt a) ∧
    (i ≠ .cls → (∀ x y n, i ≠ .drw x y n) → (∀ x y, t.pixelAt x y = s.pixelAt x y) ∧ t.dirty = s.dirty) ∧
    t.key = s.key ∧ ((∀ x nn, i ≠ .rnd x nn) → t.draws = s.draws) ∧ t.agenda = s.agenda ∧ t.onward = s.onward

/-- R11: a register other than the instruction's destinations keeps its value, and `VF` is written beside the destinations by
no instruction but the six flag writers. Rests on D1 (log entry 15). -/
def Obligations.RegistersChangeOnlyAsDestinations : Prop :=
  ∀ (i : Instr) (s t : State) (r : Nibble), exec i s = .next t → t.reg r ≠ s.reg r →
    (r = 0xF#4 ∧ ∃ x y n, i ∈ [.addReg x y, .subReg x y, .subnReg x y, .shr x, .shl x, .drw x y n]) ∨
    (∃ y nn, i ∈ [.ldImm r nn, .addImm r nn, .ldReg r y, .orReg r y, .andReg r y, .xorReg r y, .addReg r y, .subReg r y,
      .shr r, .subnReg r y, .shl r, .rnd r nn, .ldFromDelay r, .ldKey r]) ∨
    (∃ x : Nibble, i = .loadRegs x ∧ r.toNat ≤ x.toNat)

/-- R13: where each instruction takes `pc`: by 2; by 4 in a taken skip; to its target in a jump, call or return; nowhere in the
key-wait stall and at a fault. The additions modulo 65536 are D24 (log entry 21), the faults D10 (log entry 13). -/
def Obligations.PcMovesAsListed : Prop :=
  ∀ (i : Instr) (s t : State), exec i s = .next t → s.halted = false →
    (t.halted = true ∧ t.pc = s.pc) ∨
    (t.pc = s.pc + 2#16 ∧ i ≠ .ret ∧ (∀ nnn, i ≠ .jp nnn ∧ i ≠ .call nnn ∧ i ≠ .jpV0 nnn)) ∨
    (t.pc = s.pc + 4#16 ∧ ∃ x y nn, i ∈ [.seImm x nn, .sneImm x nn, .seReg x y, .sneReg x y, .skp x, .sknp x]) ∨
    (∃ nnn, (i = .jp nnn ∨ i = .call nnn) ∧ t.pc.toNat = nnn.toNat) ∨
    (∃ nnn, i = .jpV0 nnn ∧ t.pc.toNat = (s.reg 0x0#4).toNat + nnn.toNat) ∨
    (∃ k : Fin 16, i = .ret ∧ s.sp.val = k.val + 1 ∧ t.pc = s.stack[k] + 2#16) ∨
    ((∃ x, i = .ldKey x) ∧ (∀ k : Fin 16, s.key[k] = false) ∧ t = s)

/-- R17, R20: no instruction reads `sound` or `dirty`: two states that differ only there are taken to states that differ at most
there. -/
def Obligations.SoundAndDirtyAreNeverRead : Prop :=
  ∀ (i : Instr) (s t : State) (b : Byte) (d : Bool), exec i s = .next t →
    ∃ u, exec i { s with sound := b, dirty := d } = .next u ∧ t.SameExcept u [.sound, .dirty]

/-- R187 (decision D19; log entry 22): in the finished state, a jump to itself, a `Step` of the core leaves the whole state unchanged. -/
def Obligations.FinishedStateIsAFixedPoint : Prop :=
  ∀ s : State, s.Finished → transact .step s = .next s

/-- The invariant holds at reset (the values of R26, decisions D11 and D12; log entries 3 and 4). -/
def Obligations.InvariantHoldsAtReset : Prop := State.reset.Inv

/-- Every step keeps the invariant (`State.Inv`): canonical memory, a fault record exactly on a halted core and naming `pc`,
`pc` at most 0x10FE (R13), stack slots at most 0x0FFF (R80, R82); whatever transaction is served. -/
def Obligations.EveryStepKeepsTheInvariant : Prop :=
  ∀ s t : State, s.Inv → step s = .next t → t.Inv

/-! ## The driver's schedule, the fields of a word, the delay timer -/

/-- R185: the plan of a state is any schedule: the agenda, then `Step`s, or a block for ever, or an endless free sequence; and every
step that does not stop leaves the plan of the transactions after the one it served. The plan is the model's own and the
sequence its free value (log entry 1): the statement holds whichever sequence it is. -/
def Obligations.ScheduleRunsAsPlanned : Prop :=
  (∀ (s : State) (n : Nat) (h : n < s.agenda.length), s.planned n = s.agenda[n]) ∧
  (∀ (s : State) (n : Nat), s.onward = .cycle [] → s.planned (s.agenda.length + n) = .step) ∧
  (∀ (s : State) (first : Transaction) (rest : List Transaction) (n : Nat), s.onward = .cycle (first :: rest) →
    s.planned (s.agenda.length + n) =
      (first :: rest)[n % (first :: rest).length]'(Nat.mod_lt _ (Nat.succ_pos _))) ∧
  (∀ (s : State) (turn n : Nat), s.onward = .free turn →
    s.planned (s.agenda.length + n) = Config.schedule (turn + n)) ∧
  ∀ s t : State, step s = .next t → ∀ n, t.planned n = s.planned (n + 1)

/-- R61: where the fields stand in the word and in its two bytes, how they overlap, that an instruction's operands are the fields
its pattern names, and that the top nibble and the sub-selector of its group (the low nibble in group 8, the low byte in
groups 0, E, F) tell which row an instruction belongs to. -/
def Obligations.FieldsAreTheBitsOfTheWord : Prop :=
  (∀ op : Word, (fieldTop op).toNat = op.toNat / 4096 ∧ (fieldX op).toNat = op.toNat / 256 % 16 ∧
    (fieldY op).toNat = op.toNat / 16 % 16 ∧ (fieldN op).toNat = op.toNat % 16 ∧ (fieldNN op).toNat = op.toNat % 256 ∧
    (fieldNNN op).toNat = op.toNat % 4096 ∧
    (fieldNNN op).toNat = (fieldX op).toNat * 256 + (fieldY op).toNat * 16 + (fieldN op).toNat ∧
    (fieldNN op).toNat = (fieldY op).toNat * 16 + (fieldN op).toNat) ∧
  (∀ hi lo : Byte, (fieldTop (opcodeOf hi lo)).toNat = hi.toNat / 16 ∧ (fieldX (opcodeOf hi lo)).toNat = hi.toNat % 16 ∧
    (fieldY (opcodeOf hi lo)).toNat = lo.toNat / 16 ∧ (fieldN (opcodeOf hi lo)).toNat = lo.toNat % 16 ∧
    fieldNN (opcodeOf hi lo) = lo) ∧
  (∀ (op : Word) (i : Instr), decode op = .instr i → operandsFrom op i) ∧
  ∀ (op op' : Word) (i i' : Instr), decode op = .instr i → decode op' = .instr i' → fieldTop op = fieldTop op' →
    (fieldTop op = 0x8#4 → fieldN op = fieldN op') →
    (fieldTop op ∈ [0x0#4, 0xE#4, 0xF#4] → fieldNN op = fieldNN op') → rowOf i = rowOf i'

/-- R16: `Fx15` writes the delay timer from `V[x]`, `Fx07` reads it into `V[x]`; on a running core a `Tick` decrements it where it is
not zero, leaves it at zero otherwise, and raises nothing; a `Step` never changes it except through `Fx15`; and no instruction
but `Fx07` reads it: in a state that differs in `delay` alone, every other one does the same but for `delay`. -/
def Obligations.DelayTimerCountsDownToZero : Prop :=
  (∀ (x : Nibble) (s : State), ∃ t, exec (.ldDelay x) s = .next t ∧ t.delay = s.reg x) ∧
  (∀ (x : Nibble) (s : State), ∃ t, exec (.ldFromDelay x) s = .next t ∧ t.reg x = s.delay) ∧
  (∀ s : State, s.halted = false → ∃ t, transact .tick s = .next t ∧
    (s.delay ≠ 0#8 → t.delay.toNat + 1 = s.delay.toNat) ∧ (s.delay = 0#8 → t.delay = 0#8) ∧ t.pc = s.pc ∧
    t.halted = false) ∧
  (∀ s t : State, transact .step s = .next t → (∀ x, decode s.opcode ≠ .instr (.ldDelay x)) → t.delay = s.delay) ∧
  ∀ (i : Instr) (s t : State) (d : Byte), (∀ x, i ≠ .ldFromDelay x) → exec i s = .next t →
    ∃ u, exec i { s with delay := d } = .next u ∧ t.SameExcept u [.delay]
end

