-- ==== Sys2Proof/Laws/Decode.lean ====
section
/-! SUPPORT. The fields of the three word layouts (R61, R64), and how a mask fixes a field. -/

namespace Sys2Proof

@[simp] theorem fieldTop_wordXYN (t x y n : Nibble) : fieldTop (wordXYN t x y n) = t := by
  apply BitVec.eq_of_getLsbD_eq
  intro i hi
  interval_cases i <;> simp [fieldTop, wordXYN]

@[simp] theorem fieldX_wordXYN (t x y n : Nibble) : fieldX (wordXYN t x y n) = x := by
  apply BitVec.eq_of_getLsbD_eq
  intro i hi
  interval_cases i <;> simp [fieldX, wordXYN]

@[simp] theorem fieldY_wordXYN (t x y n : Nibble) : fieldY (wordXYN t x y n) = y := by
  apply BitVec.eq_of_getLsbD_eq
  intro i hi
  interval_cases i <;> simp [fieldY, wordXYN]

@[simp] theorem fieldN_wordXYN (t x y n : Nibble) : fieldN (wordXYN t x y n) = n := by
  apply BitVec.eq_of_getLsbD_eq
  intro i hi
  interval_cases i <;> simp [fieldN, wordXYN]

@[simp] theorem fieldTop_wordXNN (t x : Nibble) (nn : Byte) : fieldTop (wordXNN t x nn) = t := by
  apply BitVec.eq_of_getLsbD_eq
  intro i hi
  interval_cases i <;> simp [fieldTop, wordXNN]

@[simp] theorem fieldX_wordXNN (t x : Nibble) (nn : Byte) : fieldX (wordXNN t x nn) = x := by
  apply BitVec.eq_of_getLsbD_eq
  intro i hi
  interval_cases i <;> simp [fieldX, wordXNN]

@[simp] theorem fieldNN_wordXNN (t x : Nibble) (nn : Byte) : fieldNN (wordXNN t x nn) = nn := by
  apply BitVec.eq_of_getLsbD_eq
  intro i hi
  interval_cases i <;> simp [fieldNN, wordXNN]

@[simp] theorem fieldTop_wordNNN (t : Nibble) (nnn : Addr12) : fieldTop (wordNNN t nnn) = t := by
  apply BitVec.eq_of_getLsbD_eq
  intro i hi
  interval_cases i <;> simp [fieldTop, wordNNN]

@[simp] theorem fieldNNN_wordNNN (t : Nibble) (nnn : Addr12) : fieldNNN (wordNNN t nnn) = nnn := by
  apply BitVec.eq_of_getLsbD_eq
  intro i hi
  interval_cases i <;> simp [fieldNNN, wordNNN]

/-- A word is its four nibbles. -/
theorem wordXYN_fields (op : Word) : wordXYN (fieldTop op) (fieldX op) (fieldY op) (fieldN op) = op := by
  apply BitVec.eq_of_getLsbD_eq
  intro i hi
  interval_cases i <;> simp [wordXYN, fieldTop, fieldX, fieldY, fieldN]

/-- A word is its top nibble, `x` and `nn`. -/
theorem wordXNN_fields (op : Word) : wordXNN (fieldTop op) (fieldX op) (fieldNN op) = op := by
  apply BitVec.eq_of_getLsbD_eq
  intro i hi
  interval_cases i <;> simp [wordXNN, fieldTop, fieldX, fieldNN]

/-- A word is its top nibble and `nnn`. -/
theorem wordNNN_fields (op : Word) : wordNNN (fieldTop op) (fieldNNN op) = op := by
  apply BitVec.eq_of_getLsbD_eq
  intro i hi
  interval_cases i <;> simp [wordNNN, fieldTop, fieldNNN]

/-- A bit field of an AND is the AND of the bit fields. -/
theorem extractLsb'_and_word (a b : Word) (lo len : Nat) :
    (a &&& b).extractLsb' lo len = a.extractLsb' lo len &&& b.extractLsb' lo len := by
  apply BitVec.eq_of_getLsbD_eq
  intro i hi
  simp [hi]

/-- A field the mask covers whole has the value's bits. -/
theorem field_of_masked {op mask value : Word} (h : op &&& mask = value) (lo len : Nat)
    (hm : mask.extractLsb' lo len = BitVec.allOnes len) : op.extractLsb' lo len = value.extractLsb' lo len := by
  have := congrArg (BitVec.extractLsb' lo len) h
  rwa [extractLsb'_and_word, hm, BitVec.and_allOnes] at this

/-- The two bytes of an opcode make the opcode (R47). -/
@[simp] theorem opcodeOf_opcodeBytes (op : Word) : opcodeOf (op.extractLsb' 8 8) (op.extractLsb' 0 8) = op := by
  apply BitVec.eq_of_getLsbD_eq
  intro i hi
  interval_cases i <;> simp [opcodeOf]

@[simp] theorem opcodeBytes_length (op : Word) : (opcodeBytes op).length = 2 := rfl

theorem decodeGroup0_unknown {op w : Word} (h : decodeGroup0 op = .unknownOpcode w) : w = op := by
  unfold decodeGroup0 at h
  repeat' split at h
  all_goals cases h
  all_goals rfl

theorem decodeGroup8_unknown {op w : Word} (h : decodeGroup8 op = .unknownOpcode w) : w = op := by
  unfold decodeGroup8 at h
  repeat' split at h
  all_goals cases h
  all_goals rfl

theorem decodeGroupE_unknown {op w : Word} (h : decodeGroupE op = .unknownOpcode w) : w = op := by
  unfold decodeGroupE at h
  repeat' split at h
  all_goals cases h
  all_goals rfl

theorem decodeGroupF_unknown {op w : Word} (h : decodeGroupF op = .unknownOpcode w) : w = op := by
  unfold decodeGroupF at h
  repeat' split at h
  all_goals cases h
  all_goals rfl

/-- A word is rejected under its own value. -/
theorem decode_unknown_self {op w : Word} (h : decode op = .unknownOpcode w) : w = op := by
  unfold decode at h
  split at h
  case h_1 => exact decodeGroup0_unknown h
  case h_9 => exact decodeGroup8_unknown h
  case h_15 => exact decodeGroupE_unknown h
  case h_16 => exact decodeGroupF_unknown h
  all_goals cases h

/-- Zero-filled memory is an unknown opcode (R66). -/
theorem decode_zero : decode 0x0000#16 = .unknownOpcode 0x0000#16 := by decide

end Sys2Proof
end

