-- ==== Sys2Proof/Laws/Display.lean ====
section
/-! SUPPORT. What drawing does: no pixel is toggled twice, so the display after a draw is the display before it XOR the sprite
mask, and the flag says whether the mask and the old display have a pixel in common (R132). -/

namespace Sys2Proof.Machine

/-- A toggle inverts its pixel and no other. -/
theorem Display.pixel_toggle (d : Display) (x x' : Fin 64) (y y' : Fin 32) :
    (d.toggle x y).pixel x' y' = (d.pixel x' y' ^^ decide ((x', y') = (x, y))) := by
  unfold Display.toggle Display.pixel
  by_cases hy : y.val = y'.val
  · have hy' : y = y' := Fin.ext hy
    subst hy'
    by_cases hx : x.val = x'.val
    · have hx' : x = x' := Fin.ext hx
      subst hx'
      simp
    · have hx' : ¬ x' = x := fun e => hx (by rw [e])
      simp [hx', Vector.getElem_set_ne _ _ hx]
  · have hy' : ¬ y' = y := fun e => hy (by rw [e])
    simp [hy', Vector.getElem_set_ne _ _ hy]

@[simp] theorem Display.pixel_blank (x : Fin 64) (y : Fin 32) : Display.blank.pixel x y = false := by
  simp [Display.blank, Display.pixel]

/-- Toggle a list of pixels, collecting whether one that was on was turned off. -/
def toggleAll : List (Fin 64 × Fin 32) → Display × Bool → Display × Bool
  | [], acc => acc
  | p :: ps, (d, hit) => toggleAll ps (d.toggle p.1 p.2, hit || d.pixel p.1 p.2)

theorem toggleAll_append (ps qs : List (Fin 64 × Fin 32)) (acc : Display × Bool) :
    toggleAll (ps ++ qs) acc = toggleAll qs (toggleAll ps acc) := by
  induction ps generalizing acc with
  | nil => rfl
  | cons p ps ih => exact ih _

/-- Toggling distinct pixels inverts exactly those. -/
theorem toggleAll_pixel (ps : List (Fin 64 × Fin 32)) (h : ps.Nodup) (d : Display) (hit : Bool) (x : Fin 64) (y : Fin 32) :
    (toggleAll ps (d, hit)).1.pixel x y = (d.pixel x y ^^ decide ((x, y) ∈ ps)) := by
  induction ps generalizing d hit with
  | nil => simp [toggleAll]
  | cons p ps ih =>
    rw [List.nodup_cons] at h
    rw [toggleAll, ih h.2, Display.pixel_toggle]
    by_cases hp : (x, y) = (p.1, p.2)
    · have hp' : (x, y) = p := hp
      simp [hp', h.1]
    · have hp' : ¬ (x, y) = p := hp
      simp [hp']

/-- Toggling distinct pixels turns one off exactly when one of them was on. -/
theorem toggleAll_hit (ps : List (Fin 64 × Fin 32)) (h : ps.Nodup) (d : Display) (hit : Bool) :
    (toggleAll ps (d, hit)).2 = (hit || ps.any (fun p => d.pixel p.1 p.2)) := by
  induction ps generalizing d hit with
  | nil => simp [toggleAll]
  | cons p ps ih =>
    rw [List.nodup_cons] at h
    rw [toggleAll, ih h.2, List.any_cons, Bool.or_assoc]
    congr 2
    rw [Bool.eq_iff_iff, List.any_eq_true, List.any_eq_true]
    refine exists_congr fun q => and_congr_right fun hq => ?_
    rw [Display.pixel_toggle]
    have : ¬ (q.1, q.2) = (p.1, p.2) := fun e => h.1 (by rw [show p = q from e.symm]; exact hq)
    simp [this]

/-- The pixels a sprite byte's listed bits toggle on display row `py`. -/
def bitTargets (ox : Byte) (py : Fin 32) (b : Byte) (bits : List Nat) : List (Fin 64 × Fin 32) :=
  (bits.filter (fun k => b.getLsbD (7 - k))).map (fun k => (spriteColumn ox k, py))

/-- The pixels the sprite rows from number `row` on toggle. -/
def rowTargets (ox oy : Byte) : List Byte → Nat → List (Fin 64 × Fin 32)
  | [], _ => []
  | b :: bs, row => bitTargets ox (spriteRow oy row) b [0, 1, 2, 3, 4, 5, 6, 7] ++ rowTargets ox oy bs (row + 1)

theorem drawBits_eq (ox : Byte) (py : Fin 32) (b : Byte) (bits : List Nat) (acc : Display × Bool) :
    drawBits ox py b bits acc = toggleAll (bitTargets ox py b bits) acc := by
  induction bits generalizing acc with
  | nil => rfl
  | cons k bits ih =>
    obtain ⟨d, hit⟩ := acc
    rw [drawBits]
    split
    · rename_i hk
      rw [ih]
      simp [bitTargets, hk, toggleAll]
    · rename_i hk
      rw [ih]
      simp [bitTargets, hk]

theorem drawRows_eq (ox oy : Byte) (bs : List Byte) (row : Nat) (acc : Display × Bool) :
    drawRows ox oy bs row acc = toggleAll (rowTargets ox oy bs row) acc := by
  induction bs generalizing row acc with
  | nil => rfl
  | cons b bs ih => rw [drawRows, ih, drawBits_eq, rowTargets, toggleAll_append]

theorem mem_bitTargets (ox : Byte) (py : Fin 32) (b : Byte) (bits : List Nat) (x : Fin 64) (y : Fin 32) :
    (x, y) ∈ bitTargets ox py b bits ↔
      y = py ∧ ∃ k ∈ bits, b.getLsbD (7 - k) = true ∧ spriteColumn ox k = x := by
  simp only [bitTargets, List.mem_map, List.mem_filter, Prod.mk.injEq]
  constructor
  · rintro ⟨k, ⟨hk, hb⟩, rfl, rfl⟩
    exact ⟨rfl, k, hk, hb, rfl⟩
  · rintro ⟨rfl, k, hk, hb, rfl⟩
    exact ⟨k, ⟨hk, hb⟩, rfl, rfl⟩

theorem mem_rowTargets (ox oy : Byte) (bs : List Byte) (row : Nat) (x : Fin 64) (y : Fin 32) :
    (x, y) ∈ rowTargets ox oy bs row ↔
      ∃ j, ∃ h : j < bs.length, spriteRow oy (row + j) = y ∧
        ∃ k, k < 8 ∧ bs[j].getLsbD (7 - k) = true ∧ spriteColumn ox k = x := by
  induction bs generalizing row with
  | nil => simp [rowTargets]
  | cons b bs ih =>
    rw [rowTargets, List.mem_append, mem_bitTargets, ih]
    constructor
    · rintro (⟨rfl, k, hk, hb, hx⟩ | ⟨j, hj, hy, hk⟩)
      · refine ⟨0, by simp, rfl, k, ?_, hb, hx⟩
        simp only [List.mem_cons, List.not_mem_nil, or_false] at hk
        omega
      · exact ⟨j + 1, by simpa using hj, by rw [← hy]; congr 1; omega, by simpa using hk⟩
    · rintro ⟨j, hj, hy, k, hk, hb, hx⟩
      cases j with
      | zero =>
        refine Or.inl ⟨hy.symm, k, ?_, hb, hx⟩
        simp only [List.mem_cons, List.not_mem_nil, or_false]
        omega
      | succ j =>
        exact Or.inr ⟨j, by simpa using hj, by rw [← hy]; congr 1; omega, k, hk, by simpa using hb, hx⟩

/-- The eight columns of a sprite are distinct, because 8 is at most 64 (R132). -/
theorem spriteColumn_inj (ox : Byte) {k k' : Nat} (hk : k < 8) (hk' : k' < 8)
    (h : spriteColumn ox k = spriteColumn ox k') : k = k' := by
  have := congrArg Fin.val h
  simp only [spriteColumn] at this
  omega

/-- At most 32 consecutive rows of a sprite are distinct (R132). -/
theorem spriteRow_inj (oy : Byte) {r r' : Nat} (hr : r < r' + 32) (hr' : r' < r + 32)
    (h : spriteRow oy r = spriteRow oy r') : r = r' := by
  have := congrArg Fin.val h
  simp only [spriteRow] at this
  omega

theorem bitTargets_nodup (ox : Byte) (py : Fin 32) (b : Byte) :
    (bitTargets ox py b [0, 1, 2, 3, 4, 5, 6, 7]).Nodup := by
  rw [bitTargets]
  refine List.Nodup.map_on ?_ (List.Nodup.filter _ (by decide))
  intro k hk k' hk' h
  have h8 : ∀ i ∈ [0, 1, 2, 3, 4, 5, 6, 7], i < 8 := by decide
  exact spriteColumn_inj ox (h8 k (List.mem_of_mem_filter hk)) (h8 k' (List.mem_of_mem_filter hk'))
    (congrArg Prod.fst h)

theorem rowTargets_nodup (ox oy : Byte) (bs : List Byte) (row : Nat) (h : bs.length ≤ 32) :
    (rowTargets ox oy bs row).Nodup := by
  induction bs generalizing row with
  | nil => exact List.nodup_nil
  | cons b bs ih =>
    simp only [List.length_cons] at h
    rw [rowTargets, List.nodup_append]
    refine ⟨bitTargets_nodup ox _ b, ih (row + 1) (by omega), ?_⟩
    rintro ⟨x, y⟩ hp q hq rfl
    rw [mem_bitTargets] at hp
    rw [mem_rowTargets] at hq
    obtain ⟨j, hj, hy, -⟩ := hq
    have := spriteRow_inj oy (by omega) (by omega) (hy.trans hp.1)
    omega

/-- A pixel is toggled by a sprite exactly when the mask sets it. -/
theorem mem_rowTargets_iff_mask (ox oy : Byte) (bs : List Byte) (h : bs.length ≤ 32) (x : Fin 64) (y : Fin 32) :
    (x, y) ∈ rowTargets ox oy bs 0 ↔ spriteMask bs ox oy x y = true := by
  have hox := ox.isLt
  have hoy := oy.isLt
  have hx := x.isLt
  have hy := y.isLt
  rw [mem_rowTargets]
  simp only [spriteMask, Bool.and_eq_true, decide_eq_true_eq]
  constructor
  · rintro ⟨j, hj, rfl, k, hk, hb, rfl⟩
    have hdx : ((spriteColumn ox k).val + 64 - ox.toNat % 64) % 64 = k := by
      simp only [spriteColumn]
      omega
    have hdy : ((spriteRow oy (0 + j)).val + 32 - oy.toNat % 32) % 32 = j := by
      simp only [spriteRow]
      omega
    rw [hdx, hdy]
    exact ⟨hk, by simpa [hj] using hb⟩
  · rintro ⟨hk, hb⟩
    have hj : (y.val + 32 - oy.toNat % 32) % 32 < bs.length := by
      by_contra hnot
      rw [List.getD_eq_default _ _ (by omega)] at hb
      simp at hb
    refine ⟨_, hj, ?_, _, hk, by simpa [hj] using hb, ?_⟩
    · apply Fin.ext
      simp only [spriteRow]
      omega
    · apply Fin.ext
      simp only [spriteColumn]
      omega

/-- The display after drawing a sprite is the display before it XOR the mask (R132). -/
theorem drawRows_pixel (ox oy : Byte) (bs : List Byte) (h : bs.length ≤ 32) (d : Display) (x : Fin 64) (y : Fin 32) :
    (drawRows ox oy bs 0 (d, false)).1.pixel x y = (d.pixel x y ^^ spriteMask bs ox oy x y) := by
  rw [drawRows_eq, toggleAll_pixel _ (rowTargets_nodup ox oy bs 0 h)]
  congr 1
  rw [Bool.eq_iff_iff, decide_eq_true_eq]
  exact mem_rowTargets_iff_mask ox oy bs h x y

/-- The collision flag says whether the mask and the old display have a set pixel in common (R132). -/
theorem drawRows_hit (ox oy : Byte) (bs : List Byte) (h : bs.length ≤ 32) (d : Display) :
    (drawRows ox oy bs 0 (d, false)).2 = true ↔
      ∃ x y, spriteMask bs ox oy x y = true ∧ d.pixel x y = true := by
  rw [drawRows_eq, toggleAll_hit _ (rowTargets_nodup ox oy bs 0 h), Bool.false_or, List.any_eq_true]
  constructor
  · rintro ⟨⟨x, y⟩, hp, hd⟩
    exact ⟨x, y, (mem_rowTargets_iff_mask ox oy bs h x y).1 hp, hd⟩
  · rintro ⟨x, y, hp, hd⟩
    exact ⟨(x, y), (mem_rowTargets_iff_mask ox oy bs h x y).2 hp, hd⟩

end Sys2Proof.Machine
end

