-- ==== Sys2Proof/Laws/Memory.lean ====
section
/-! SUPPORT. Memory as data: what a byte reads after a write, and that every write keeps the canonical form. -/

namespace Sys2Proof.Machine

@[simp] theorem Memory.get_nil (a : Nat) : Memory.get [] a = Memory.unlisted := rfl

@[simp] theorem Memory.get_cons (k : Nat) (b : Byte) (m : Memory) (a : Nat) :
    Memory.get ((k, b) :: m) a = if k = a then b else Memory.get m a := rfl

/-- An address below every listed one reads as unlisted. -/
theorem Memory.get_below {lo : Nat} {m : Memory} (h : Memory.wfFrom lo m = true) {a : Nat} (ha : a < lo) :
    Memory.get m a = Memory.unlisted := by
  induction m generalizing lo with
  | nil => rfl
  | cons cell m ih =>
    obtain ⟨k, b⟩ := cell
    simp only [Memory.wfFrom, Bool.and_eq_true, decide_eq_true_eq] at h
    rw [Memory.get_cons, if_neg (by omega)]
    exact ih h.2 (by omega)

theorem Memory.wfFrom_mono {lo lo' : Nat} (hlo : lo' ≤ lo) {m : Memory} (h : Memory.wfFrom lo m = true) :
    Memory.wfFrom lo' m = true := by
  cases m with
  | nil => rfl
  | cons cell m =>
    simp only [Memory.wfFrom, Bool.and_eq_true, decide_eq_true_eq] at h ⊢
    exact ⟨⟨⟨by omega, h.1.1.2⟩, h.1.2⟩, h.2⟩

/-- A write keeps the canonical form above any bound not above the address written. -/
theorem Memory.wfFrom_set {lo : Nat} {m : Memory} (h : Memory.wfFrom lo m = true) {a : Nat} (hlo : lo ≤ a)
    (ha : a < Config.memSize) (b : Byte) : Memory.wfFrom lo (Memory.set m a b) = true := by
  induction m generalizing lo with
  | nil =>
    simp only [Memory.set]
    split
    · rfl
    · rename_i hb
      simp [Memory.wfFrom, hlo, ha, hb]
  | cons cell m ih =>
    obtain ⟨k, c⟩ := cell
    have h' := h
    simp only [Memory.wfFrom, Bool.and_eq_true, decide_eq_true_eq] at h
    simp only [Memory.set]
    split
    · split
      · exact h'
      · rename_i hk hb
        simp [Memory.wfFrom, hlo, ha, hb, h.1.1.2, h.1.2, h.2]
        omega
    · split
      · rename_i hk heq
        subst heq
        split
        · exact Memory.wfFrom_mono (by omega) h.2
        · rename_i hb
          simp [Memory.wfFrom, hlo, ha, hb, h.2]
      · rename_i hk hne
        have := ih h.2 (by omega)
        simp [Memory.wfFrom, h.1.1.1, h.1.1.2, h.1.2, this]

/-- Every write inside memory keeps the canonical form. -/
theorem Memory.wf_set {m : Memory} (h : m.wf = true) {a : Nat} (ha : a < Config.memSize) (b : Byte) :
    (m.set a b).wf = true :=
  Memory.wfFrom_set h (Nat.zero_le a) ha b

/-- A write leaves every other address alone, whatever the list. -/
theorem Memory.get_set_ne (m : Memory) {a a' : Nat} (hne : a' ≠ a) (b : Byte) : (m.set a b).get a' = m.get a' := by
  have hne' : ¬ a = a' := fun e => hne e.symm
  induction m with
  | nil =>
    simp only [Memory.set]
    split <;> simp [hne']
  | cons cell m ih =>
    obtain ⟨k, c⟩ := cell
    simp only [Memory.set]
    split
    · split <;> simp [hne']
    · split
      · rename_i heq
        subst heq
        split <;> simp [hne']
      · simp [ih]

/-- A write is seen at its address, at any bound below which nothing is listed. -/
theorem Memory.get_set_same_from {lo : Nat} {m : Memory} (h : Memory.wfFrom lo m = true) (a : Nat) (b : Byte) :
    (Memory.set m a b).get a = b := by
  induction m generalizing lo with
  | nil =>
    simp only [Memory.set]
    split <;> rename_i hb <;> simp [hb]
  | cons cell m ih =>
    obtain ⟨k, c⟩ := cell
    simp only [Memory.wfFrom, Bool.and_eq_true, decide_eq_true_eq] at h
    simp only [Memory.set]
    split
    · split
      · rename_i hk hb
        rw [hb, Memory.get_cons, if_neg (by omega)]
        exact Memory.get_below h.2 (by omega)
      · simp
    · split
      · rename_i hk heq
        subst heq
        split
        · rename_i hb
          rw [hb]
          exact Memory.get_below h.2 (by omega)
        · simp
      · rename_i hk hne
        rw [Memory.get_cons, if_neg (fun e => hne e.symm)]
        exact ih h.2

/-- In a canonical memory a write is seen at its address and nowhere else. -/
theorem Memory.get_set {m : Memory} (h : m.wf = true) (a : Nat) (b : Byte) (a' : Nat) :
    (m.set a b).get a' = if a' = a then b else m.get a' := by
  split
  · rename_i heq
    subst heq
    exact Memory.get_set_same_from h a' b
  · rename_i hne
    exact Memory.get_set_ne m hne b

end Sys2Proof.Machine
end

