-- ==== Sys2Proof/Laws/State.lean ====
section
/-! SUPPORT. One lemma per field per update of the state, each true by `rfl`, so that no proof unfolds a record update; and
the same for the three views `reg`, `byteAt`, `pixelAt` where the update leaves them alone. -/

namespace Sys2Proof.Machine

variable (s : State)

/-! ### emit -/

@[simp] theorem State.emit_v (e : Event) : (s.emit e).v = s.v := rfl
@[simp] theorem State.emit_index (e : Event) : (s.emit e).index = s.index := rfl
@[simp] theorem State.emit_pc (e : Event) : (s.emit e).pc = s.pc := rfl
@[simp] theorem State.emit_stack (e : Event) : (s.emit e).stack = s.stack := rfl
@[simp] theorem State.emit_sp (e : Event) : (s.emit e).sp = s.sp := rfl
@[simp] theorem State.emit_delay (e : Event) : (s.emit e).delay = s.delay := rfl
@[simp] theorem State.emit_sound (e : Event) : (s.emit e).sound = s.sound := rfl
@[simp] theorem State.emit_mem (e : Event) : (s.emit e).mem = s.mem := rfl
@[simp] theorem State.emit_disp (e : Event) : (s.emit e).disp = s.disp := rfl
@[simp] theorem State.emit_dirty (e : Event) : (s.emit e).dirty = s.dirty := rfl
@[simp] theorem State.emit_key (e : Event) : (s.emit e).key = s.key := rfl
@[simp] theorem State.emit_halted (e : Event) : (s.emit e).halted = s.halted := rfl
@[simp] theorem State.emit_fault (e : Event) : (s.emit e).fault = s.fault := rfl
@[simp] theorem State.emit_events (e : Event) : (s.emit e).events = s.events ++ [e] := rfl
@[simp] theorem State.emit_draws (e : Event) : (s.emit e).draws = s.draws := rfl
@[simp] theorem State.emit_agenda (e : Event) : (s.emit e).agenda = s.agenda := rfl
@[simp] theorem State.emit_onward (e : Event) : (s.emit e).onward = s.onward := rfl
@[simp] theorem State.emit_reg (e : Event) (r : Nibble) : (s.emit e).reg r = s.reg r := rfl
@[simp] theorem State.emit_byteAt (e : Event) (a : Nat) : (s.emit e).byteAt a = s.byteAt a := rfl
@[simp] theorem State.emit_pixelAt (e : Event) (x : Fin 64) (y : Fin 32) : (s.emit e).pixelAt x y = s.pixelAt x y := rfl

/-! ### setReg -/

@[simp] theorem State.setReg_v (x : Nibble) (b : Byte) : (s.setReg x b).v = s.v.set x.toNat b x.isLt := rfl
@[simp] theorem State.setReg_index (x : Nibble) (b : Byte) : (s.setReg x b).index = s.index := rfl
@[simp] theorem State.setReg_pc (x : Nibble) (b : Byte) : (s.setReg x b).pc = s.pc := rfl
@[simp] theorem State.setReg_stack (x : Nibble) (b : Byte) : (s.setReg x b).stack = s.stack := rfl
@[simp] theorem State.setReg_sp (x : Nibble) (b : Byte) : (s.setReg x b).sp = s.sp := rfl
@[simp] theorem State.setReg_delay (x : Nibble) (b : Byte) : (s.setReg x b).delay = s.delay := rfl
@[simp] theorem State.setReg_sound (x : Nibble) (b : Byte) : (s.setReg x b).sound = s.sound := rfl
@[simp] theorem State.setReg_mem (x : Nibble) (b : Byte) : (s.setReg x b).mem = s.mem := rfl
@[simp] theorem State.setReg_disp (x : Nibble) (b : Byte) : (s.setReg x b).disp = s.disp := rfl
@[simp] theorem State.setReg_dirty (x : Nibble) (b : Byte) : (s.setReg x b).dirty = s.dirty := rfl
@[simp] theorem State.setReg_key (x : Nibble) (b : Byte) : (s.setReg x b).key = s.key := rfl
@[simp] theorem State.setReg_halted (x : Nibble) (b : Byte) : (s.setReg x b).halted = s.halted := rfl
@[simp] theorem State.setReg_fault (x : Nibble) (b : Byte) : (s.setReg x b).fault = s.fault := rfl
@[simp] theorem State.setReg_events (x : Nibble) (b : Byte) : (s.setReg x b).events = s.events := rfl
@[simp] theorem State.setReg_draws (x : Nibble) (b : Byte) : (s.setReg x b).draws = s.draws := rfl
@[simp] theorem State.setReg_agenda (x : Nibble) (b : Byte) : (s.setReg x b).agenda = s.agenda := rfl
@[simp] theorem State.setReg_onward (x : Nibble) (b : Byte) : (s.setReg x b).onward = s.onward := rfl
@[simp] theorem State.setReg_byteAt (x : Nibble) (b : Byte) (a : Nat) : (s.setReg x b).byteAt a = s.byteAt a := rfl
@[simp] theorem State.setReg_pixelAt (r : Nibble) (b : Byte) (x : Fin 64) (y : Fin 32) : (s.setReg r b).pixelAt x y = s.pixelAt x y := rfl

/-! ### setIndex -/

@[simp] theorem State.setIndex_v (w : Word) : (s.setIndex w).v = s.v := rfl
@[simp] theorem State.setIndex_index (w : Word) : (s.setIndex w).index = w := rfl
@[simp] theorem State.setIndex_pc (w : Word) : (s.setIndex w).pc = s.pc := rfl
@[simp] theorem State.setIndex_stack (w : Word) : (s.setIndex w).stack = s.stack := rfl
@[simp] theorem State.setIndex_sp (w : Word) : (s.setIndex w).sp = s.sp := rfl
@[simp] theorem State.setIndex_delay (w : Word) : (s.setIndex w).delay = s.delay := rfl
@[simp] theorem State.setIndex_sound (w : Word) : (s.setIndex w).sound = s.sound := rfl
@[simp] theorem State.setIndex_mem (w : Word) : (s.setIndex w).mem = s.mem := rfl
@[simp] theorem State.setIndex_disp (w : Word) : (s.setIndex w).disp = s.disp := rfl
@[simp] theorem State.setIndex_dirty (w : Word) : (s.setIndex w).dirty = s.dirty := rfl
@[simp] theorem State.setIndex_key (w : Word) : (s.setIndex w).key = s.key := rfl
@[simp] theorem State.setIndex_halted (w : Word) : (s.setIndex w).halted = s.halted := rfl
@[simp] theorem State.setIndex_fault (w : Word) : (s.setIndex w).fault = s.fault := rfl
@[simp] theorem State.setIndex_events (w : Word) : (s.setIndex w).events = s.events := rfl
@[simp] theorem State.setIndex_draws (w : Word) : (s.setIndex w).draws = s.draws := rfl
@[simp] theorem State.setIndex_agenda (w : Word) : (s.setIndex w).agenda = s.agenda := rfl
@[simp] theorem State.setIndex_onward (w : Word) : (s.setIndex w).onward = s.onward := rfl
@[simp] theorem State.setIndex_reg (w : Word) (r : Nibble) : (s.setIndex w).reg r = s.reg r := rfl
@[simp] theorem State.setIndex_byteAt (w : Word) (a : Nat) : (s.setIndex w).byteAt a = s.byteAt a := rfl
@[simp] theorem State.setIndex_pixelAt (w : Word) (x : Fin 64) (y : Fin 32) : (s.setIndex w).pixelAt x y = s.pixelAt x y := rfl

/-! ### jump -/

@[simp] theorem State.jump_v (w : Word) : (s.jump w).v = s.v := rfl
@[simp] theorem State.jump_index (w : Word) : (s.jump w).index = s.index := rfl
@[simp] theorem State.jump_pc (w : Word) : (s.jump w).pc = w := rfl
@[simp] theorem State.jump_stack (w : Word) : (s.jump w).stack = s.stack := rfl
@[simp] theorem State.jump_sp (w : Word) : (s.jump w).sp = s.sp := rfl
@[simp] theorem State.jump_delay (w : Word) : (s.jump w).delay = s.delay := rfl
@[simp] theorem State.jump_sound (w : Word) : (s.jump w).sound = s.sound := rfl
@[simp] theorem State.jump_mem (w : Word) : (s.jump w).mem = s.mem := rfl
@[simp] theorem State.jump_disp (w : Word) : (s.jump w).disp = s.disp := rfl
@[simp] theorem State.jump_dirty (w : Word) : (s.jump w).dirty = s.dirty := rfl
@[simp] theorem State.jump_key (w : Word) : (s.jump w).key = s.key := rfl
@[simp] theorem State.jump_halted (w : Word) : (s.jump w).halted = s.halted := rfl
@[simp] theorem State.jump_fault (w : Word) : (s.jump w).fault = s.fault := rfl
@[simp] theorem State.jump_events (w : Word) : (s.jump w).events = s.events := rfl
@[simp] theorem State.jump_draws (w : Word) : (s.jump w).draws = s.draws := rfl
@[simp] theorem State.jump_agenda (w : Word) : (s.jump w).agenda = s.agenda := rfl
@[simp] theorem State.jump_onward (w : Word) : (s.jump w).onward = s.onward := rfl
@[simp] theorem State.jump_reg (w : Word) (r : Nibble) : (s.jump w).reg r = s.reg r := rfl
@[simp] theorem State.jump_byteAt (w : Word) (a : Nat) : (s.jump w).byteAt a = s.byteAt a := rfl
@[simp] theorem State.jump_pixelAt (w : Word) (x : Fin 64) (y : Fin 32) : (s.jump w).pixelAt x y = s.pixelAt x y := rfl

/-! ### advance -/

@[simp] theorem State.advance_v : (s.advance).v = s.v := rfl
@[simp] theorem State.advance_index : (s.advance).index = s.index := rfl
@[simp] theorem State.advance_pc : (s.advance).pc = s.pc + 2#16 := rfl
@[simp] theorem State.advance_stack : (s.advance).stack = s.stack := rfl
@[simp] theorem State.advance_sp : (s.advance).sp = s.sp := rfl
@[simp] theorem State.advance_delay : (s.advance).delay = s.delay := rfl
@[simp] theorem State.advance_sound : (s.advance).sound = s.sound := rfl
@[simp] theorem State.advance_mem : (s.advance).mem = s.mem := rfl
@[simp] theorem State.advance_disp : (s.advance).disp = s.disp := rfl
@[simp] theorem State.advance_dirty : (s.advance).dirty = s.dirty := rfl
@[simp] theorem State.advance_key : (s.advance).key = s.key := rfl
@[simp] theorem State.advance_halted : (s.advance).halted = s.halted := rfl
@[simp] theorem State.advance_fault : (s.advance).fault = s.fault := rfl
@[simp] theorem State.advance_events : (s.advance).events = s.events := rfl
@[simp] theorem State.advance_draws : (s.advance).draws = s.draws := rfl
@[simp] theorem State.advance_agenda : (s.advance).agenda = s.agenda := rfl
@[simp] theorem State.advance_onward : (s.advance).onward = s.onward := rfl
@[simp] theorem State.advance_reg (r : Nibble) : (s.advance).reg r = s.reg r := rfl
@[simp] theorem State.advance_byteAt (a : Nat) : (s.advance).byteAt a = s.byteAt a := rfl
@[simp] theorem State.advance_pixelAt (x : Fin 64) (y : Fin 32) : (s.advance).pixelAt x y = s.pixelAt x y := rfl

/-! ### skipIf -/

@[simp] theorem State.skipIf_v (c : Bool) : (s.skipIf c).v = s.v := rfl
@[simp] theorem State.skipIf_index (c : Bool) : (s.skipIf c).index = s.index := rfl
@[simp] theorem State.skipIf_pc (c : Bool) : (s.skipIf c).pc = s.pc + (if c then 4#16 else 2#16) := rfl
@[simp] theorem State.skipIf_stack (c : Bool) : (s.skipIf c).stack = s.stack := rfl
@[simp] theorem State.skipIf_sp (c : Bool) : (s.skipIf c).sp = s.sp := rfl
@[simp] theorem State.skipIf_delay (c : Bool) : (s.skipIf c).delay = s.delay := rfl
@[simp] theorem State.skipIf_sound (c : Bool) : (s.skipIf c).sound = s.sound := rfl
@[simp] theorem State.skipIf_mem (c : Bool) : (s.skipIf c).mem = s.mem := rfl
@[simp] theorem State.skipIf_disp (c : Bool) : (s.skipIf c).disp = s.disp := rfl
@[simp] theorem State.skipIf_dirty (c : Bool) : (s.skipIf c).dirty = s.dirty := rfl
@[simp] theorem State.skipIf_key (c : Bool) : (s.skipIf c).key = s.key := rfl
@[simp] theorem State.skipIf_halted (c : Bool) : (s.skipIf c).halted = s.halted := rfl
@[simp] theorem State.skipIf_fault (c : Bool) : (s.skipIf c).fault = s.fault := rfl
@[simp] theorem State.skipIf_events (c : Bool) : (s.skipIf c).events = s.events := rfl
@[simp] theorem State.skipIf_draws (c : Bool) : (s.skipIf c).draws = s.draws := rfl
@[simp] theorem State.skipIf_agenda (c : Bool) : (s.skipIf c).agenda = s.agenda := rfl
@[simp] theorem State.skipIf_onward (c : Bool) : (s.skipIf c).onward = s.onward := rfl
@[simp] theorem State.skipIf_reg (c : Bool) (r : Nibble) : (s.skipIf c).reg r = s.reg r := rfl
@[simp] theorem State.skipIf_byteAt (c : Bool) (a : Nat) : (s.skipIf c).byteAt a = s.byteAt a := rfl
@[simp] theorem State.skipIf_pixelAt (c : Bool) (x : Fin 64) (y : Fin 32) : (s.skipIf c).pixelAt x y = s.pixelAt x y := rfl

/-! ### setDelay -/

@[simp] theorem State.setDelay_v (b : Byte) : (s.setDelay b).v = s.v := rfl
@[simp] theorem State.setDelay_index (b : Byte) : (s.setDelay b).index = s.index := rfl
@[simp] theorem State.setDelay_pc (b : Byte) : (s.setDelay b).pc = s.pc := rfl
@[simp] theorem State.setDelay_stack (b : Byte) : (s.setDelay b).stack = s.stack := rfl
@[simp] theorem State.setDelay_sp (b : Byte) : (s.setDelay b).sp = s.sp := rfl
@[simp] theorem State.setDelay_delay (b : Byte) : (s.setDelay b).delay = b := rfl
@[simp] theorem State.setDelay_sound (b : Byte) : (s.setDelay b).sound = s.sound := rfl
@[simp] theorem State.setDelay_mem (b : Byte) : (s.setDelay b).mem = s.mem := rfl
@[simp] theorem State.setDelay_disp (b : Byte) : (s.setDelay b).disp = s.disp := rfl
@[simp] theorem State.setDelay_dirty (b : Byte) : (s.setDelay b).dirty = s.dirty := rfl
@[simp] theorem State.setDelay_key (b : Byte) : (s.setDelay b).key = s.key := rfl
@[simp] theorem State.setDelay_halted (b : Byte) : (s.setDelay b).halted = s.halted := rfl
@[simp] theorem State.setDelay_fault (b : Byte) : (s.setDelay b).fault = s.fault := rfl
@[simp] theorem State.setDelay_events (b : Byte) : (s.setDelay b).events = s.events := rfl
@[simp] theorem State.setDelay_draws (b : Byte) : (s.setDelay b).draws = s.draws := rfl
@[simp] theorem State.setDelay_agenda (b : Byte) : (s.setDelay b).agenda = s.agenda := rfl
@[simp] theorem State.setDelay_onward (b : Byte) : (s.setDelay b).onward = s.onward := rfl
@[simp] theorem State.setDelay_reg (b : Byte) (r : Nibble) : (s.setDelay b).reg r = s.reg r := rfl
@[simp] theorem State.setDelay_byteAt (b : Byte) (a : Nat) : (s.setDelay b).byteAt a = s.byteAt a := rfl
@[simp] theorem State.setDelay_pixelAt (b : Byte) (x : Fin 64) (y : Fin 32) : (s.setDelay b).pixelAt x y = s.pixelAt x y := rfl

/-! ### setSound -/

@[simp] theorem State.setSound_v (b : Byte) : (s.setSound b).v = s.v := rfl
@[simp] theorem State.setSound_index (b : Byte) : (s.setSound b).index = s.index := rfl
@[simp] theorem State.setSound_pc (b : Byte) : (s.setSound b).pc = s.pc := rfl
@[simp] theorem State.setSound_stack (b : Byte) : (s.setSound b).stack = s.stack := rfl
@[simp] theorem State.setSound_sp (b : Byte) : (s.setSound b).sp = s.sp := rfl
@[simp] theorem State.setSound_delay (b : Byte) : (s.setSound b).delay = s.delay := rfl
@[simp] theorem State.setSound_sound (b : Byte) : (s.setSound b).sound = b := rfl
@[simp] theorem State.setSound_mem (b : Byte) : (s.setSound b).mem = s.mem := rfl
@[simp] theorem State.setSound_disp (b : Byte) : (s.setSound b).disp = s.disp := rfl
@[simp] theorem State.setSound_dirty (b : Byte) : (s.setSound b).dirty = s.dirty := rfl
@[simp] theorem State.setSound_key (b : Byte) : (s.setSound b).key = s.key := rfl
@[simp] theorem State.setSound_halted (b : Byte) : (s.setSound b).halted = s.halted := rfl
@[simp] theorem State.setSound_fault (b : Byte) : (s.setSound b).fault = s.fault := rfl
@[simp] theorem State.setSound_events (b : Byte) : (s.setSound b).events = s.events := rfl
@[simp] theorem State.setSound_draws (b : Byte) : (s.setSound b).draws = s.draws := rfl
@[simp] theorem State.setSound_agenda (b : Byte) : (s.setSound b).agenda = s.agenda := rfl
@[simp] theorem State.setSound_onward (b : Byte) : (s.setSound b).onward = s.onward := rfl
@[simp] theorem State.setSound_reg (b : Byte) (r : Nibble) : (s.setSound b).reg r = s.reg r := rfl
@[simp] theorem State.setSound_byteAt (b : Byte) (a : Nat) : (s.setSound b).byteAt a = s.byteAt a := rfl
@[simp] theorem State.setSound_pixelAt (b : Byte) (x : Fin 64) (y : Fin 32) : (s.setSound b).pixelAt x y = s.pixelAt x y := rfl

/-! ### setDisp -/

@[simp] theorem State.setDisp_v (d : Display) : (s.setDisp d).v = s.v := rfl
@[simp] theorem State.setDisp_index (d : Display) : (s.setDisp d).index = s.index := rfl
@[simp] theorem State.setDisp_pc (d : Display) : (s.setDisp d).pc = s.pc := rfl
@[simp] theorem State.setDisp_stack (d : Display) : (s.setDisp d).stack = s.stack := rfl
@[simp] theorem State.setDisp_sp (d : Display) : (s.setDisp d).sp = s.sp := rfl
@[simp] theorem State.setDisp_delay (d : Display) : (s.setDisp d).delay = s.delay := rfl
@[simp] theorem State.setDisp_sound (d : Display) : (s.setDisp d).sound = s.sound := rfl
@[simp] theorem State.setDisp_mem (d : Display) : (s.setDisp d).mem = s.mem := rfl
@[simp] theorem State.setDisp_disp (d : Display) : (s.setDisp d).disp = d := rfl
@[simp] theorem State.setDisp_dirty (d : Display) : (s.setDisp d).dirty = true := rfl
@[simp] theorem State.setDisp_key (d : Display) : (s.setDisp d).key = s.key := rfl
@[simp] theorem State.setDisp_halted (d : Display) : (s.setDisp d).halted = s.halted := rfl
@[simp] theorem State.setDisp_fault (d : Display) : (s.setDisp d).fault = s.fault := rfl
@[simp] theorem State.setDisp_events (d : Display) : (s.setDisp d).events = s.events := rfl
@[simp] theorem State.setDisp_draws (d : Display) : (s.setDisp d).draws = s.draws := rfl
@[simp] theorem State.setDisp_agenda (d : Display) : (s.setDisp d).agenda = s.agenda := rfl
@[simp] theorem State.setDisp_onward (d : Display) : (s.setDisp d).onward = s.onward := rfl
@[simp] theorem State.setDisp_reg (d : Display) (r : Nibble) : (s.setDisp d).reg r = s.reg r := rfl
@[simp] theorem State.setDisp_byteAt (d : Display) (a : Nat) : (s.setDisp d).byteAt a = s.byteAt a := rfl
@[simp] theorem State.setDisp_pixelAt (d : Display) (x : Fin 64) (y : Fin 32) : (s.setDisp d).pixelAt x y = d.pixel x y := rfl

/-! ### raise -/

@[simp] theorem State.raise_v (c : FaultCode) (op : Word) : (s.raise c op).v = s.v := rfl
@[simp] theorem State.raise_index (c : FaultCode) (op : Word) : (s.raise c op).index = s.index := rfl
@[simp] theorem State.raise_pc (c : FaultCode) (op : Word) : (s.raise c op).pc = s.pc := rfl
@[simp] theorem State.raise_stack (c : FaultCode) (op : Word) : (s.raise c op).stack = s.stack := rfl
@[simp] theorem State.raise_sp (c : FaultCode) (op : Word) : (s.raise c op).sp = s.sp := rfl
@[simp] theorem State.raise_delay (c : FaultCode) (op : Word) : (s.raise c op).delay = s.delay := rfl
@[simp] theorem State.raise_sound (c : FaultCode) (op : Word) : (s.raise c op).sound = s.sound := rfl
@[simp] theorem State.raise_mem (c : FaultCode) (op : Word) : (s.raise c op).mem = s.mem := rfl
@[simp] theorem State.raise_disp (c : FaultCode) (op : Word) : (s.raise c op).disp = s.disp := rfl
@[simp] theorem State.raise_dirty (c : FaultCode) (op : Word) : (s.raise c op).dirty = s.dirty := rfl
@[simp] theorem State.raise_key (c : FaultCode) (op : Word) : (s.raise c op).key = s.key := rfl
@[simp] theorem State.raise_halted (c : FaultCode) (op : Word) : (s.raise c op).halted = true := rfl
@[simp] theorem State.raise_fault (c : FaultCode) (op : Word) : (s.raise c op).fault = some ⟨c, op, s.pc⟩ := rfl
@[simp] theorem State.raise_events (c : FaultCode) (op : Word) : (s.raise c op).events = s.events := rfl
@[simp] theorem State.raise_draws (c : FaultCode) (op : Word) : (s.raise c op).draws = s.draws := rfl
@[simp] theorem State.raise_agenda (c : FaultCode) (op : Word) : (s.raise c op).agenda = s.agenda := rfl
@[simp] theorem State.raise_onward (c : FaultCode) (op : Word) : (s.raise c op).onward = s.onward := rfl
@[simp] theorem State.raise_reg (c : FaultCode) (op : Word) (r : Nibble) : (s.raise c op).reg r = s.reg r := rfl
@[simp] theorem State.raise_byteAt (c : FaultCode) (op : Word) (a : Nat) : (s.raise c op).byteAt a = s.byteAt a := rfl
@[simp] theorem State.raise_pixelAt (c : FaultCode) (op : Word) (x : Fin 64) (y : Fin 32) : (s.raise c op).pixelAt x y = s.pixelAt x y := rfl

/-! ### drawRand -/

@[simp] theorem State.drawRand_v : (s.drawRand.2).v = s.v := rfl
@[simp] theorem State.drawRand_index : (s.drawRand.2).index = s.index := rfl
@[simp] theorem State.drawRand_pc : (s.drawRand.2).pc = s.pc := rfl
@[simp] theorem State.drawRand_stack : (s.drawRand.2).stack = s.stack := rfl
@[simp] theorem State.drawRand_sp : (s.drawRand.2).sp = s.sp := rfl
@[simp] theorem State.drawRand_delay : (s.drawRand.2).delay = s.delay := rfl
@[simp] theorem State.drawRand_sound : (s.drawRand.2).sound = s.sound := rfl
@[simp] theorem State.drawRand_mem : (s.drawRand.2).mem = s.mem := rfl
@[simp] theorem State.drawRand_disp : (s.drawRand.2).disp = s.disp := rfl
@[simp] theorem State.drawRand_dirty : (s.drawRand.2).dirty = s.dirty := rfl
@[simp] theorem State.drawRand_key : (s.drawRand.2).key = s.key := rfl
@[simp] theorem State.drawRand_halted : (s.drawRand.2).halted = s.halted := rfl
@[simp] theorem State.drawRand_fault : (s.drawRand.2).fault = s.fault := rfl
@[simp] theorem State.drawRand_events : (s.drawRand.2).events = s.events := rfl
@[simp] theorem State.drawRand_draws : (s.drawRand.2).draws = s.draws + 1 := rfl
@[simp] theorem State.drawRand_agenda : (s.drawRand.2).agenda = s.agenda := rfl
@[simp] theorem State.drawRand_onward : (s.drawRand.2).onward = s.onward := rfl
@[simp] theorem State.drawRand_reg (r : Nibble) : (s.drawRand.2).reg r = s.reg r := rfl
@[simp] theorem State.drawRand_byteAt (a : Nat) : (s.drawRand.2).byteAt a = s.byteAt a := rfl
@[simp] theorem State.drawRand_pixelAt (x : Fin 64) (y : Fin 32) : (s.drawRand.2).pixelAt x y = s.pixelAt x y := rfl

/-! ### afterFetch -/

@[simp] theorem State.afterFetch_v : s.afterFetch.v = s.v := rfl
@[simp] theorem State.afterFetch_index : s.afterFetch.index = s.index := rfl
@[simp] theorem State.afterFetch_pc : s.afterFetch.pc = s.pc := rfl
@[simp] theorem State.afterFetch_stack : s.afterFetch.stack = s.stack := rfl
@[simp] theorem State.afterFetch_sp : s.afterFetch.sp = s.sp := rfl
@[simp] theorem State.afterFetch_delay : s.afterFetch.delay = s.delay := rfl
@[simp] theorem State.afterFetch_sound : s.afterFetch.sound = s.sound := rfl
@[simp] theorem State.afterFetch_mem : s.afterFetch.mem = s.mem := rfl
@[simp] theorem State.afterFetch_disp : s.afterFetch.disp = s.disp := rfl
@[simp] theorem State.afterFetch_dirty : s.afterFetch.dirty = s.dirty := rfl
@[simp] theorem State.afterFetch_key : s.afterFetch.key = s.key := rfl
@[simp] theorem State.afterFetch_halted : s.afterFetch.halted = s.halted := rfl
@[simp] theorem State.afterFetch_fault : s.afterFetch.fault = s.fault := rfl
@[simp] theorem State.afterFetch_events : s.afterFetch.events = s.events ++ diagnostics .read s.pc.toNat 2 := rfl
@[simp] theorem State.afterFetch_draws : s.afterFetch.draws = s.draws := rfl
@[simp] theorem State.afterFetch_agenda : s.afterFetch.agenda = s.agenda := rfl
@[simp] theorem State.afterFetch_onward : s.afterFetch.onward = s.onward := rfl
@[simp] theorem State.afterFetch_reg (r : Nibble) : s.afterFetch.reg r = s.reg r := rfl
@[simp] theorem State.afterFetch_byteAt (a : Nat) : s.afterFetch.byteAt a = s.byteAt a := rfl
@[simp] theorem State.afterFetch_pixelAt (x : Fin 64) (y : Fin 32) : s.afterFetch.pixelAt x y = s.pixelAt x y := rfl

@[simp] theorem State.drawRand_fst : s.drawRand.1 = Config.randomByte s.draws := rfl

end Sys2Proof.Machine
end

