-- ==== Sys2Proof/Laws/Ops.lean ====
section
/-! SUPPORT. What each shared operation can do, said once. -/

namespace Sys2Proof.Machine

/-! ## Registers -/

/-- A register write is seen at its register and nowhere else. -/
@[simp] theorem State.reg_setReg (s : State) (x : Nibble) (b : Byte) (r : Nibble) :
    (s.setReg x b).reg r = if r = x then b else s.reg r := by
  simp only [State.reg, State.setReg, Vector.getElem_set, BitVec.toNat_inj, eq_comm]

@[simp] theorem State.reg_setFlagThenReg (s : State) (flag : Byte) (x : Nibble) (result : Byte) (r : Nibble) :
    (s.setFlagThenReg flag x result).reg r = if r = x then result else if r = 0xF#4 then flag else s.reg r := by
  simp [State.setFlagThenReg]

/-- Writing consecutive registers changes nothing but registers. -/
theorem State.setRegsFrom_eq (s : State) (i : Nat) (bs : List Byte) :
    s.setRegsFrom i bs = { s with v := (s.setRegsFrom i bs).v } := by
  induction bs generalizing s i with
  | nil => rfl
  | cons b bs ih =>
    rw [State.setRegsFrom, ih]
    rfl

/-- Writing consecutive registers from number `i`: the written ones hold the bytes, the others are unchanged. -/
theorem State.reg_setRegsFrom (s : State) (i : Nat) (bs : List Byte) (hi : i + bs.length ≤ 16) (r : Nibble) :
    (s.setRegsFrom i bs).reg r =
      if h : i ≤ r.toNat ∧ r.toNat < i + bs.length then bs[r.toNat - i] else s.reg r := by
  induction bs generalizing s i with
  | nil =>
    rw [dif_neg (by simp only [List.length_nil]; omega)]
    rfl
  | cons b bs ih =>
    simp only [List.length_cons] at hi
    rw [State.setRegsFrom, ih _ _ (by omega), State.reg_setReg]
    have hr : (r = BitVec.ofNat 4 i) ↔ r.toNat = i := by
      rw [← BitVec.toNat_inj, BitVec.toNat_ofNat, Nat.mod_eq_of_lt (by omega)]
    by_cases h1 : r.toNat = i
    · rw [dif_neg (by omega), if_pos (hr.2 h1), dif_pos (by simp only [List.length_cons]; omega)]
      simp [h1]
    · by_cases h2 : i + 1 ≤ r.toNat ∧ r.toNat < i + 1 + bs.length
      · rw [dif_pos h2, dif_pos (by simp only [List.length_cons]; omega)]
        have : r.toNat - i = (r.toNat - (i + 1)) + 1 := by omega
        simp [this]
      · rw [dif_neg h2, if_neg (fun e => h1 (hr.1 e)), dif_neg (by simp only [List.length_cons]; omega)]

/-- The block `V[0]` to `V[x]` has `x`+1 bytes. -/
theorem State.regsTo_length (s : State) (x : Nibble) : (s.regsTo x).length = x.toNat + 1 := by
  have := x.isLt
  simp [State.regsTo]
  omega

/-- Byte `i` of the block `V[0]` to `V[x]` is `V[i]`. -/
theorem State.regsTo_getElem (s : State) (x r : Nibble) (h : r.toNat < (s.regsTo x).length) :
    (s.regsTo x)[r.toNat] = s.reg r := by
  simp [State.regsTo, State.reg]

/-! ## Checked memory accesses -/

@[simp] theorem State.memRead_fst (s : State) (a : Nat) : (s.memRead a).1 = s.byteAt a := rfl

theorem State.byteAt_above (s : State) {a : Nat} (h : 0xFFF < a) : s.byteAt a = 0x00#8 := by
  simp [State.byteAt]
  omega

/-- A checked read changes nothing but the events (R41). -/
theorem State.memRead_snd (s : State) (a : Nat) :
    (s.memRead a).2 = { s with events := s.events ++ diagnostics .read a 1 } := by
  by_cases h : a ≤ 0xFFF
  · simp [State.memRead, h, diagnostics]
  · simp [State.memRead, h, diagnostics, State.emit, Nat.lt_of_not_le h]

/-- The diagnostics of a block are those of its first byte and then those of the rest. -/
theorem diagnostics_succ (kind : AccessKind) (a count : Nat) :
    diagnostics kind a (count + 1) = diagnostics kind a 1 ++ diagnostics kind (a + 1) count := by
  simp only [diagnostics, List.range'_succ, List.range'_zero, List.filter_cons, List.filter_nil]
  split <;> simp

@[simp] theorem diagnostics_zero (kind : AccessKind) (a : Nat) : diagnostics kind a 0 = [] := rfl

/-- A block of checked reads changes nothing but the events (R41, R48). -/
theorem State.readBytes_snd (s : State) (a count : Nat) :
    (s.readBytes a count).2 = { s with events := s.events ++ diagnostics .read a count } := by
  induction count generalizing s a with
  | zero => simp [State.readBytes]
  | succ count ih =>
    rw [State.readBytes, diagnostics_succ]
    simp only [ih, State.memRead_snd, List.append_assoc]

/-- A block of checked reads answers the bytes at the ascending addresses (R41, R48). -/
theorem State.readBytes_fst (s : State) (a count : Nat) :
    (s.readBytes a count).1 = (List.range' a count).map s.byteAt := by
  induction count generalizing s a with
  | zero => rfl
  | succ count ih =>
    rw [State.readBytes, List.range'_succ, List.map_cons]
    simp only [ih, State.memRead_fst, State.memRead_snd]
    rfl

@[simp] theorem State.readBytes_length (s : State) (a count : Nat) : (s.readBytes a count).1.length = count := by
  rw [State.readBytes_fst]
  simp

/-- A checked write changes nothing but memory, or the events where it is dropped (R42). -/
theorem State.memWrite_eq (s : State) (a : Nat) (b : Byte) :
    s.memWrite a b =
      { s with mem := if a ≤ 0xFFF then s.mem.set a b else s.mem, events := s.events ++ diagnostics .write a 1 } := by
  by_cases h : a ≤ 0xFFF
  · simp [State.memWrite, h, diagnostics]
  · simp [State.memWrite, h, diagnostics, State.emit, Nat.lt_of_not_le h]

/-- A block of checked writes changes nothing but memory and the events (R42, R48). -/
theorem State.writeBytes_eq (s : State) (a : Nat) (bs : List Byte) :
    s.writeBytes a bs =
      { s with mem := (s.writeBytes a bs).mem, events := s.events ++ diagnostics .write a bs.length } := by
  induction bs generalizing s a with
  | nil => simp [State.writeBytes]
  | cons b bs ih =>
    rw [State.writeBytes, ih, List.length_cons, diagnostics_succ, State.memWrite_eq]
    simp only [List.append_assoc]

/-- A block of checked writes keeps the canonical form of memory. -/
theorem State.writeBytes_wf (s : State) (a : Nat) (bs : List Byte) (h : s.mem.wf = true) :
    (s.writeBytes a bs).mem.wf = true := by
  induction bs generalizing s a with
  | nil => exact h
  | cons b bs ih =>
    rw [State.writeBytes]
    apply ih
    rw [State.memWrite_eq]
    by_cases ha : a ≤ 0xFFF
    · simp only [ha, if_true]
      exact Memory.wf_set h (by simp only [Config.memSize]; omega) b
    · simpa [ha] using h

/-- A checked write leaves every other address alone (R42). -/
theorem State.byteAt_memWrite_ne (s : State) {a a' : Nat} (h : a' ≠ a) (b : Byte) :
    (s.memWrite a b).byteAt a' = s.byteAt a' := by
  rw [State.memWrite_eq]
  simp only [State.byteAt]
  split
  · split
    · exact Memory.get_set_ne s.mem h b
    · rfl
  · rfl

/-- A checked write is seen at its address where that is in memory (R41, R42). -/
theorem State.byteAt_memWrite_same (s : State) (hwf : s.mem.wf = true) {a : Nat} (ha : a ≤ 0xFFF) (b : Byte) :
    (s.memWrite a b).byteAt a = b := by
  rw [State.memWrite_eq]
  simp [State.byteAt, ha, Memory.get_set hwf]

/-- A block of checked writes leaves every address outside the block alone. -/
theorem State.byteAt_writeBytes_outside (s : State) (a : Nat) (bs : List Byte) {a' : Nat}
    (h : ¬ (a ≤ a' ∧ a' < a + bs.length)) : (s.writeBytes a bs).byteAt a' = s.byteAt a' := by
  induction bs generalizing s a with
  | nil => rfl
  | cons b bs ih =>
    simp only [List.length_cons] at h
    rw [State.writeBytes, ih _ _ (by omega), State.byteAt_memWrite_ne]
    omega

/-- A block of checked writes is seen at each of its addresses that is in memory. -/
theorem State.byteAt_writeBytes_inside (s : State) (hwf : s.mem.wf = true) (a : Nat) (bs : List Byte) {k : Nat}
    (hk : k < bs.length) (ha : a + k ≤ 0xFFF) : (s.writeBytes a bs).byteAt (a + k) = bs[k] := by
  induction bs generalizing s a k with
  | nil => exact absurd hk (Nat.not_lt_zero k)
  | cons b bs ih =>
    rw [State.writeBytes]
    have hwf' : (s.memWrite a b).mem.wf = true := State.writeBytes_wf s a [b] hwf
    cases k with
    | zero =>
      rw [State.byteAt_writeBytes_outside _ _ _ (by omega)]
      exact State.byteAt_memWrite_same s hwf ha b
    | succ k =>
      have := ih (s.memWrite a b) hwf' (a + 1) (k := k) (by simpa using hk) (by omega)
      rw [show a + (k + 1) = a + 1 + k by omega, this]
      rfl

/-! ## What the block operations leave alone -/

@[simp] theorem State.setFlagThenReg_index (s : State) (flag : Byte) (x : Nibble) (result : Byte) : (s.setFlagThenReg flag x result).index = s.index := rfl
@[simp] theorem State.setFlagThenReg_pc (s : State) (flag : Byte) (x : Nibble) (result : Byte) : (s.setFlagThenReg flag x result).pc = s.pc := rfl
@[simp] theorem State.setFlagThenReg_stack (s : State) (flag : Byte) (x : Nibble) (result : Byte) : (s.setFlagThenReg flag x result).stack = s.stack := rfl
@[simp] theorem State.setFlagThenReg_sp (s : State) (flag : Byte) (x : Nibble) (result : Byte) : (s.setFlagThenReg flag x result).sp = s.sp := rfl
@[simp] theorem State.setFlagThenReg_delay (s : State) (flag : Byte) (x : Nibble) (result : Byte) : (s.setFlagThenReg flag x result).delay = s.delay := rfl
@[simp] theorem State.setFlagThenReg_sound (s : State) (flag : Byte) (x : Nibble) (result : Byte) : (s.setFlagThenReg flag x result).sound = s.sound := rfl
@[simp] theorem State.setFlagThenReg_mem (s : State) (flag : Byte) (x : Nibble) (result : Byte) : (s.setFlagThenReg flag x result).mem = s.mem := rfl
@[simp] theorem State.setFlagThenReg_disp (s : State) (flag : Byte) (x : Nibble) (result : Byte) : (s.setFlagThenReg flag x result).disp = s.disp := rfl
@[simp] theorem State.setFlagThenReg_dirty (s : State) (flag : Byte) (x : Nibble) (result : Byte) : (s.setFlagThenReg flag x result).dirty = s.dirty := rfl
@[simp] theorem State.setFlagThenReg_key (s : State) (flag : Byte) (x : Nibble) (result : Byte) : (s.setFlagThenReg flag x result).key = s.key := rfl
@[simp] theorem State.setFlagThenReg_halted (s : State) (flag : Byte) (x : Nibble) (result : Byte) : (s.setFlagThenReg flag x result).halted = s.halted := rfl
@[simp] theorem State.setFlagThenReg_fault (s : State) (flag : Byte) (x : Nibble) (result : Byte) : (s.setFlagThenReg flag x result).fault = s.fault := rfl
@[simp] theorem State.setFlagThenReg_events (s : State) (flag : Byte) (x : Nibble) (result : Byte) : (s.setFlagThenReg flag x result).events = s.events := rfl
@[simp] theorem State.setFlagThenReg_draws (s : State) (flag : Byte) (x : Nibble) (result : Byte) : (s.setFlagThenReg flag x result).draws = s.draws := rfl
@[simp] theorem State.setFlagThenReg_agenda (s : State) (flag : Byte) (x : Nibble) (result : Byte) : (s.setFlagThenReg flag x result).agenda = s.agenda := rfl
@[simp] theorem State.setFlagThenReg_onward (s : State) (flag : Byte) (x : Nibble) (result : Byte) : (s.setFlagThenReg flag x result).onward = s.onward := rfl
@[simp] theorem State.setFlagThenReg_byteAt (s : State) (flag : Byte) (x : Nibble) (result : Byte) (a' : Nat) : (s.setFlagThenReg flag x result).byteAt a' = s.byteAt a' := rfl
@[simp] theorem State.setFlagThenReg_pixelAt (s : State) (flag : Byte) (x : Nibble) (result : Byte) (px : Fin 64) (py : Fin 32) : (s.setFlagThenReg flag x result).pixelAt px py = s.pixelAt px py := rfl

@[simp] theorem State.setRegsFrom_index (s : State) (i : Nat) (bs : List Byte) : (s.setRegsFrom i bs).index = s.index := by rw [State.setRegsFrom_eq]
@[simp] theorem State.setRegsFrom_pc (s : State) (i : Nat) (bs : List Byte) : (s.setRegsFrom i bs).pc = s.pc := by rw [State.setRegsFrom_eq]
@[simp] theorem State.setRegsFrom_stack (s : State) (i : Nat) (bs : List Byte) : (s.setRegsFrom i bs).stack = s.stack := by rw [State.setRegsFrom_eq]
@[simp] theorem State.setRegsFrom_sp (s : State) (i : Nat) (bs : List Byte) : (s.setRegsFrom i bs).sp = s.sp := by rw [State.setRegsFrom_eq]
@[simp] theorem State.setRegsFrom_delay (s : State) (i : Nat) (bs : List Byte) : (s.setRegsFrom i bs).delay = s.delay := by rw [State.setRegsFrom_eq]
@[simp] theorem State.setRegsFrom_sound (s : State) (i : Nat) (bs : List Byte) : (s.setRegsFrom i bs).sound = s.sound := by rw [State.setRegsFrom_eq]
@[simp] theorem State.setRegsFrom_mem (s : State) (i : Nat) (bs : List Byte) : (s.setRegsFrom i bs).mem = s.mem := by rw [State.setRegsFrom_eq]
@[simp] theorem State.setRegsFrom_disp (s : State) (i : Nat) (bs : List Byte) : (s.setRegsFrom i bs).disp = s.disp := by rw [State.setRegsFrom_eq]
@[simp] theorem State.setRegsFrom_dirty (s : State) (i : Nat) (bs : List Byte) : (s.setRegsFrom i bs).dirty = s.dirty := by rw [State.setRegsFrom_eq]
@[simp] theorem State.setRegsFrom_key (s : State) (i : Nat) (bs : List Byte) : (s.setRegsFrom i bs).key = s.key := by rw [State.setRegsFrom_eq]
@[simp] theorem State.setRegsFrom_halted (s : State) (i : Nat) (bs : List Byte) : (s.setRegsFrom i bs).halted = s.halted := by rw [State.setRegsFrom_eq]
@[simp] theorem State.setRegsFrom_fault (s : State) (i : Nat) (bs : List Byte) : (s.setRegsFrom i bs).fault = s.fault := by rw [State.setRegsFrom_eq]
@[simp] theorem State.setRegsFrom_events (s : State) (i : Nat) (bs : List Byte) : (s.setRegsFrom i bs).events = s.events := by rw [State.setRegsFrom_eq]
@[simp] theorem State.setRegsFrom_draws (s : State) (i : Nat) (bs : List Byte) : (s.setRegsFrom i bs).draws = s.draws := by rw [State.setRegsFrom_eq]
@[simp] theorem State.setRegsFrom_agenda (s : State) (i : Nat) (bs : List Byte) : (s.setRegsFrom i bs).agenda = s.agenda := by rw [State.setRegsFrom_eq]
@[simp] theorem State.setRegsFrom_onward (s : State) (i : Nat) (bs : List Byte) : (s.setRegsFrom i bs).onward = s.onward := by rw [State.setRegsFrom_eq]
@[simp] theorem State.setRegsFrom_byteAt (s : State) (i : Nat) (bs : List Byte) (a' : Nat) : (s.setRegsFrom i bs).byteAt a' = s.byteAt a' := by rw [State.setRegsFrom_eq]; rfl
@[simp] theorem State.setRegsFrom_pixelAt (s : State) (i : Nat) (bs : List Byte) (px : Fin 64) (py : Fin 32) : (s.setRegsFrom i bs).pixelAt px py = s.pixelAt px py := by rw [State.setRegsFrom_eq]; rfl

@[simp] theorem State.writeBytes_v (s : State) (a : Nat) (bs : List Byte) : (s.writeBytes a bs).v = s.v := by rw [State.writeBytes_eq]
@[simp] theorem State.writeBytes_index (s : State) (a : Nat) (bs : List Byte) : (s.writeBytes a bs).index = s.index := by rw [State.writeBytes_eq]
@[simp] theorem State.writeBytes_pc (s : State) (a : Nat) (bs : List Byte) : (s.writeBytes a bs).pc = s.pc := by rw [State.writeBytes_eq]
@[simp] theorem State.writeBytes_stack (s : State) (a : Nat) (bs : List Byte) : (s.writeBytes a bs).stack = s.stack := by rw [State.writeBytes_eq]
@[simp] theorem State.writeBytes_sp (s : State) (a : Nat) (bs : List Byte) : (s.writeBytes a bs).sp = s.sp := by rw [State.writeBytes_eq]
@[simp] theorem State.writeBytes_delay (s : State) (a : Nat) (bs : List Byte) : (s.writeBytes a bs).delay = s.delay := by rw [State.writeBytes_eq]
@[simp] theorem State.writeBytes_sound (s : State) (a : Nat) (bs : List Byte) : (s.writeBytes a bs).sound = s.sound := by rw [State.writeBytes_eq]
@[simp] theorem State.writeBytes_disp (s : State) (a : Nat) (bs : List Byte) : (s.writeBytes a bs).disp = s.disp := by rw [State.writeBytes_eq]
@[simp] theorem State.writeBytes_dirty (s : State) (a : Nat) (bs : List Byte) : (s.writeBytes a bs).dirty = s.dirty := by rw [State.writeBytes_eq]
@[simp] theorem State.writeBytes_key (s : State) (a : Nat) (bs : List Byte) : (s.writeBytes a bs).key = s.key := by rw [State.writeBytes_eq]
@[simp] theorem State.writeBytes_halted (s : State) (a : Nat) (bs : List Byte) : (s.writeBytes a bs).halted = s.halted := by rw [State.writeBytes_eq]
@[simp] theorem State.writeBytes_fault (s : State) (a : Nat) (bs : List Byte) : (s.writeBytes a bs).fault = s.fault := by rw [State.writeBytes_eq]
@[simp] theorem State.writeBytes_draws (s : State) (a : Nat) (bs : List Byte) : (s.writeBytes a bs).draws = s.draws := by rw [State.writeBytes_eq]
@[simp] theorem State.writeBytes_agenda (s : State) (a : Nat) (bs : List Byte) : (s.writeBytes a bs).agenda = s.agenda := by rw [State.writeBytes_eq]
@[simp] theorem State.writeBytes_onward (s : State) (a : Nat) (bs : List Byte) : (s.writeBytes a bs).onward = s.onward := by rw [State.writeBytes_eq]
@[simp] theorem State.writeBytes_reg (s : State) (a : Nat) (bs : List Byte) (r' : Nibble) : (s.writeBytes a bs).reg r' = s.reg r' := by rw [State.writeBytes_eq]; rfl
@[simp] theorem State.writeBytes_pixelAt (s : State) (a : Nat) (bs : List Byte) (px : Fin 64) (py : Fin 32) : (s.writeBytes a bs).pixelAt px py = s.pixelAt px py := by rw [State.writeBytes_eq]; rfl
@[simp] theorem State.writeBytes_events (s : State) (a : Nat) (bs : List Byte) :
    (s.writeBytes a bs).events = s.events ++ diagnostics .write a bs.length := by rw [State.writeBytes_eq]

@[simp] theorem State.readBytes_v (s : State) (a count : Nat) : ((s.readBytes a count).2).v = s.v := by rw [State.readBytes_snd]
@[simp] theorem State.readBytes_index (s : State) (a count : Nat) : ((s.readBytes a count).2).index = s.index := by rw [State.readBytes_snd]
@[simp] theorem State.readBytes_pc (s : State) (a count : Nat) : ((s.readBytes a count).2).pc = s.pc := by rw [State.readBytes_snd]
@[simp] theorem State.readBytes_stack (s : State) (a count : Nat) : ((s.readBytes a count).2).stack = s.stack := by rw [State.readBytes_snd]
@[simp] theorem State.readBytes_sp (s : State) (a count : Nat) : ((s.readBytes a count).2).sp = s.sp := by rw [State.readBytes_snd]
@[simp] theorem State.readBytes_delay (s : State) (a count : Nat) : ((s.readBytes a count).2).delay = s.delay := by rw [State.readBytes_snd]
@[simp] theorem State.readBytes_sound (s : State) (a count : Nat) : ((s.readBytes a count).2).sound = s.sound := by rw [State.readBytes_snd]
@[simp] theorem State.readBytes_mem (s : State) (a count : Nat) : ((s.readBytes a count).2).mem = s.mem := by rw [State.readBytes_snd]
@[simp] theorem State.readBytes_disp (s : State) (a count : Nat) : ((s.readBytes a count).2).disp = s.disp := by rw [State.readBytes_snd]
@[simp] theorem State.readBytes_dirty (s : State) (a count : Nat) : ((s.readBytes a count).2).dirty = s.dirty := by rw [State.readBytes_snd]
@[simp] theorem State.readBytes_key (s : State) (a count : Nat) : ((s.readBytes a count).2).key = s.key := by rw [State.readBytes_snd]
@[simp] theorem State.readBytes_halted (s : State) (a count : Nat) : ((s.readBytes a count).2).halted = s.halted := by rw [State.readBytes_snd]
@[simp] theorem State.readBytes_fault (s : State) (a count : Nat) : ((s.readBytes a count).2).fault = s.fault := by rw [State.readBytes_snd]
@[simp] theorem State.readBytes_draws (s : State) (a count : Nat) : ((s.readBytes a count).2).draws = s.draws := by rw [State.readBytes_snd]
@[simp] theorem State.readBytes_agenda (s : State) (a count : Nat) : ((s.readBytes a count).2).agenda = s.agenda := by rw [State.readBytes_snd]
@[simp] theorem State.readBytes_onward (s : State) (a count : Nat) : ((s.readBytes a count).2).onward = s.onward := by rw [State.readBytes_snd]
@[simp] theorem State.readBytes_reg (s : State) (a count : Nat) (r' : Nibble) : ((s.readBytes a count).2).reg r' = s.reg r' := by rw [State.readBytes_snd]; rfl
@[simp] theorem State.readBytes_byteAt (s : State) (a count : Nat) (a' : Nat) : ((s.readBytes a count).2).byteAt a' = s.byteAt a' := by rw [State.readBytes_snd]; rfl
@[simp] theorem State.readBytes_pixelAt (s : State) (a count : Nat) (px : Fin 64) (py : Fin 32) : ((s.readBytes a count).2).pixelAt px py = s.pixelAt px py := by rw [State.readBytes_snd]; rfl
@[simp] theorem State.readBytes_events (s : State) (a count : Nat) :
    (s.readBytes a count).2.events = s.events ++ diagnostics .read a count := by rw [State.readBytes_snd]

/-! ## Call stack -/

/-- A push below depth 16 succeeds: the slot at the old depth holds the word, the depth is one more (R15). -/
theorem State.push_of_lt (s : State) (w : Word) (h : s.sp.val < 16) :
    s.push w = some { s with stack := s.stack.set s.sp.val w h, sp := ⟨s.sp.val + 1, by omega⟩ } := by
  rw [State.push, dif_pos h]

theorem State.push_full (s : State) (w : Word) (h : s.sp.val = 16) : s.push w = none := by
  rw [State.push, dif_neg (by omega)]

/-- A pop above depth 0 succeeds: it answers the slot below the depth, which is one less; the slot stays (R15). -/
theorem State.pop_of_pos (s : State) (h : 0 < s.sp.val) :
    s.pop = some (s.stack[s.sp.val - 1]'(by omega), { s with sp := ⟨s.sp.val - 1, by omega⟩ }) := by
  rw [State.pop, dif_neg (by omega)]

theorem State.pop_empty (s : State) (h : s.sp.val = 0) : s.pop = none := by
  rw [State.pop, dif_pos h]

/-! ## Keypad -/

/-- The ascending scan answers the last pressed key, or what was found before it. -/
theorem scanKeys_eq (ps : List Bool) (k : Nat) (found : Option Nat) :
    (scanKeys ps k found = found ∧ ∀ j, (h : j < ps.length) → ps[j] = false) ∨
    (∃ j, ∃ h : j < ps.length, scanKeys ps k found = some (k + j) ∧ ps[j] = true ∧
      ∀ j', (h' : j' < ps.length) → j < j' → ps[j'] = false) := by
  induction ps generalizing k found with
  | nil => exact Or.inl ⟨rfl, fun j h => absurd h (Nat.not_lt_zero j)⟩
  | cons p ps ih =>
    rw [scanKeys]
    rcases ih (k + 1) (if p then some k else found) with ⟨he, hall⟩ | ⟨j, hj, he, hp, hlast⟩
    · cases p with
      | false =>
        refine Or.inl ⟨by simpa using he, fun j h => ?_⟩
        cases j with
        | zero => rfl
        | succ j => exact hall j (by simpa using h)
      | true =>
        refine Or.inr ⟨0, by simp, by simpa using he, rfl, fun j' h' hlt => ?_⟩
        cases j' with
        | zero => omega
        | succ j' => exact hall j' (by simpa using h')
    · refine Or.inr ⟨j + 1, by simpa using hj, by rw [he]; congr 1; omega, by simpa using hp, fun j' h' hlt => ?_⟩
      cases j' with
      | zero => omega
      | succ j' => exact hlast j' (by simpa using h') (by omega)

/-- `Fx0A`'s scan: either no key is pressed, or it answers the highest pressed key (R141). -/
theorem State.lastPressed_eq (s : State) :
    (s.lastPressed = none ∧ ∀ k : Fin 16, s.key[k] = false) ∨
    (∃ k : Fin 16, s.lastPressed = some k.val ∧ s.key[k] = true ∧ ∀ j : Fin 16, k < j → s.key[j] = false) := by
  rcases scanKeys_eq s.key.toList 0 none with ⟨he, hall⟩ | ⟨j, hj, he, hp, hlast⟩
  · exact Or.inl ⟨he, fun k => by simpa using hall k.val (by simp)⟩
  · have hj16 : j < 16 := by simpa using hj
    refine Or.inr ⟨⟨j, hj16⟩, by simpa [State.lastPressed] using he, by simpa using hp, fun i hi => ?_⟩
    simpa using hlast i.val (by simp) hi

/-! ## Fetch -/

/-- A fetch reads the two bytes at `pc` and `pc + 1`, big-endian, and changes nothing but the events (R60). -/
theorem State.fetch_eq (s : State) : s.fetch = (s.opcode, s.afterFetch) := by
  simp only [State.fetch, State.opcode, State.afterFetch, State.memRead_fst, State.memRead_snd,
    diagnostics_succ .read s.pc.toNat 1, List.append_assoc]
  rfl

end Sys2Proof.Machine
end

