-- ==== Sys2Proof/Laws/Exec.lean ====
section
/-! SUPPORT. The cases of the five instructions whose meaning branches on more than an operand's value (every other meaning is
one next state, by `rfl`), and the inversion of `exec` as a whole. -/

namespace Sys2Proof.Machine

/-- `00EE`: a fault on the empty stack, else the top address plus 2 (R80). -/
theorem execRet_cases (s : State) :
    (s.sp.val = 0 ∧ exec .ret s = .next (s.raise .stackUnderflow (encode .ret))) ∨
    (∃ k : Fin 16, s.sp.val = k.val + 1 ∧
      exec .ret s = .next { s with sp := ⟨k.val, by omega⟩, pc := s.stack[k] + 2#16 }) := by
  by_cases h : s.sp.val = 0
  · exact Or.inl ⟨h, by simp only [exec, execRet, s.pop_empty h]⟩
  · refine Or.inr ⟨⟨s.sp.val - 1, by omega⟩, by simp only []; omega, ?_⟩
    simp only [exec, execRet, s.pop_of_pos (by omega)]
    rfl

/-- `2nnn`: a fault on the full stack, else a push and a jump (R82). -/
theorem execCall_cases (nnn : Addr12) (s : State) :
    (s.sp.val = 16 ∧ exec (.call nnn) s = .next (s.raise .stackOverflow (encode (.call nnn)))) ∨
    (∃ h : s.sp.val < 16, exec (.call nnn) s =
      .next { s with stack := s.stack.set s.sp.val s.pc h, sp := ⟨s.sp.val + 1, by omega⟩, pc := absoluteAddress nnn }) := by
  by_cases h : s.sp.val < 16
  · refine Or.inr ⟨h, ?_⟩
    simp only [exec, execCall, s.push_of_lt s.pc h]
    rfl
  · have h16 : s.sp.val = 16 := by omega
    exact Or.inl ⟨h16, by simp only [exec, execCall, s.push_full s.pc h16]⟩

/-- `V[x]` names a key up to 15 and none above (R94). -/
theorem State.keyOperand_cases (s : State) (x : Nibble) :
    (15 < (s.reg x).toNat ∧ s.keyOperand x = none) ∨
    (∃ k : Fin 16, (s.reg x).toNat = k.val ∧ s.keyOperand x = some s.key[k]) := by
  by_cases h : (s.reg x).toNat ≤ 15
  · exact Or.inr ⟨⟨(s.reg x).toNat, by omega⟩, rfl, by rw [State.keyOperand, dif_pos h]; rfl⟩
  · exact Or.inl ⟨by omega, by rw [State.keyOperand, dif_neg h]⟩

/-- `Ex9E`: a fault above key 15, else a skip if the key is pressed (R94). -/
theorem execSkp_cases (x : Nibble) (s : State) :
    (15 < (s.reg x).toNat ∧ exec (.skp x) s = .next (s.raise .keyIndexOutOfRange (encode (.skp x)))) ∨
    (∃ k : Fin 16, (s.reg x).toNat = k.val ∧ exec (.skp x) s = .next (s.skipIf s.key[k])) := by
  rcases s.keyOperand_cases x with ⟨h, e⟩ | ⟨k, h, e⟩
  · exact Or.inl ⟨h, by simp only [exec, execSkp, e]⟩
  · exact Or.inr ⟨k, h, by simp only [exec, execSkp, e]⟩

/-- `ExA1`: a fault above key 15, else a skip if the key is not pressed (R95). -/
theorem execSknp_cases (x : Nibble) (s : State) :
    (15 < (s.reg x).toNat ∧ exec (.sknp x) s = .next (s.raise .keyIndexOutOfRange (encode (.sknp x)))) ∨
    (∃ k : Fin 16, (s.reg x).toNat = k.val ∧ exec (.sknp x) s = .next (s.skipIf (!s.key[k]))) := by
  rcases s.keyOperand_cases x with ⟨h, e⟩ | ⟨k, h, e⟩
  · exact Or.inl ⟨h, by simp only [exec, execSknp, e]⟩
  · exact Or.inr ⟨k, h, by simp only [exec, execSknp, e]⟩

/-- `Fx0A`: nothing with no key pressed, else the highest pressed key (R141). -/
theorem execLdKey_cases (x : Nibble) (s : State) :
    ((∀ k : Fin 16, s.key[k] = false) ∧ exec (.ldKey x) s = .next s) ∨
    (∃ k : Fin 16, s.key[k] = true ∧ (∀ j : Fin 16, k < j → s.key[j] = false) ∧
      exec (.ldKey x) s = .next (s.setReg x (BitVec.ofNat 8 k.val)).advance) := by
  rcases s.lastPressed_eq with ⟨e, h⟩ | ⟨k, e, hk, hl⟩
  · exact Or.inl ⟨h, by simp only [exec, execLdKey, e]⟩
  · exact Or.inr ⟨k, hk, hl, by simp only [exec, execLdKey, e]⟩

/-- INVERSION: everything an instruction can do. What holds of each effect holds of every next state `exec` answers. In the
`drw` case the display and the flag stay general. -/
theorem exec_elim {P : Instr → State → State → Prop} {i : Instr} {s t : State} (h : exec i s = .next t)
    (on_ret_empty : s.sp.val = 0 → P .ret s (s.raise .stackUnderflow (encode .ret)))
    (on_ret : ∀ k : Fin 16, (hk : s.sp.val = k.val + 1) →
      P .ret s { s with sp := ⟨k.val, by omega⟩, pc := s.stack[k] + 2#16 })
    (on_call_full : ∀ nnn, s.sp.val = 16 → P (.call nnn) s (s.raise .stackOverflow (encode (.call nnn))))
    (on_call : ∀ nnn, (h : s.sp.val < 16) →
      P (.call nnn) s { s with stack := s.stack.set s.sp.val s.pc h, sp := ⟨s.sp.val + 1, by omega⟩, pc := absoluteAddress nnn })
    (on_skp_above : ∀ x, 15 < (s.reg x).toNat → P (.skp x) s (s.raise .keyIndexOutOfRange (encode (.skp x))))
    (on_skp : ∀ x (k : Fin 16), (s.reg x).toNat = k.val → P (.skp x) s (s.skipIf s.key[k]))
    (on_sknp_above : ∀ x, 15 < (s.reg x).toNat → P (.sknp x) s (s.raise .keyIndexOutOfRange (encode (.sknp x))))
    (on_sknp : ∀ x (k : Fin 16), (s.reg x).toNat = k.val → P (.sknp x) s (s.skipIf (!s.key[k])))
    (on_ldKey_none : ∀ x, (∀ k : Fin 16, s.key[k] = false) → P (.ldKey x) s s)
    (on_ldKey : ∀ x (k : Fin 16), P (.ldKey x) s (s.setReg x (BitVec.ofNat 8 k.val)).advance)
    (on_cls : P .cls s (s.setDisp Display.blank).advance)
    (on_jp : ∀ n, P (.jp n) s (s.jump (absoluteAddress n)))
    (on_jpV0 : ∀ n, P (.jpV0 n) s (s.jump (s.offsetTarget n)))
    (on_seImm : ∀ x n, P (.seImm x n) s (s.skipIf (s.reg x == n)))
    (on_sneImm : ∀ x n, P (.sneImm x n) s (s.skipIf (s.reg x != n)))
    (on_seReg : ∀ x n, P (.seReg x n) s (s.skipIf (s.reg x == s.reg n)))
    (on_sneReg : ∀ x n, P (.sneReg x n) s (s.skipIf (s.reg x != s.reg n)))
    (on_ldImm : ∀ x n, P (.ldImm x n) s (s.setReg x n).advance)
    (on_addImm : ∀ x n, P (.addImm x n) s (s.setReg x (s.reg x + n)).advance)
    (on_ldReg : ∀ x n, P (.ldReg x n) s (s.setReg x (s.reg n)).advance)
    (on_orReg : ∀ x n, P (.orReg x n) s (s.setReg x (s.reg x ||| s.reg n)).advance)
    (on_andReg : ∀ x n, P (.andReg x n) s (s.setReg x (s.reg x &&& s.reg n)).advance)
    (on_xorReg : ∀ x n, P (.xorReg x n) s (s.setReg x (s.reg x ^^^ s.reg n)).advance)
    (on_addReg : ∀ x n,
      P (.addReg x n) s (s.setFlagThenReg (carryFlag (s.reg x) (s.reg n)) x (s.reg x + s.reg n)).advance)
    (on_subReg : ∀ x n,
      P (.subReg x n) s (s.setFlagThenReg (greaterFlag (s.reg x) (s.reg n)) x (s.reg x - s.reg n)).advance)
    (on_shr : ∀ x, P (.shr x) s (s.setFlagThenReg (lowBitFlag (s.reg x)) x (s.reg x >>> 1)).advance)
    (on_subnReg : ∀ x n,
      P (.subnReg x n) s (s.setFlagThenReg (greaterFlag (s.reg n) (s.reg x)) x (s.reg n - s.reg x)).advance)
    (on_shl : ∀ x, P (.shl x) s (s.setFlagThenReg (highBitFlag (s.reg x)) x (s.reg x <<< 1)).advance)
    (on_ldIndex : ∀ n, P (.ldIndex n) s (s.setIndex (absoluteAddress n)).advance)
    (on_rnd : ∀ x n, P (.rnd x n) s (s.drawRand.2.setReg x (Config.randomByte s.draws &&& n)).advance)
    (on_drw : ∀ x y n d f, P (.drw x y n) s (((s.readBytes s.dataBase n.toNat).2.setReg 0xF#4 f).setDisp d).advance)
    (on_ldFromDelay : ∀ x, P (.ldFromDelay x) s (s.setReg x s.delay).advance)
    (on_ldDelay : ∀ x, P (.ldDelay x) s (s.setDelay (s.reg x)).advance)
    (on_ldSound : ∀ x, P (.ldSound x) s (s.setSound (s.reg x)).advance)
    (on_addIndex : ∀ x, P (.addIndex x) s (s.setIndex (s.indexPlus x)).advance)
    (on_ldGlyph : ∀ x, P (.ldGlyph x) s (s.setIndex (s.glyphAddress x)).advance)
    (on_ldBcd : ∀ x, P (.ldBcd x) s (s.writeBytes s.dataBase (decimalDigits (s.reg x))).advance)
    (on_storeRegs : ∀ x, P (.storeRegs x) s (s.writeBytes s.dataBase (s.regsTo x)).advance)
    (on_loadRegs : ∀ x,
      P (.loadRegs x) s ((s.readBytes s.dataBase (x.toNat + 1)).2.setRegsFrom 0 (s.readBytes s.dataBase (x.toNat + 1)).1).advance)
    : P i s t := by
  have key : ∀ u, exec i s = .next u → P i s u → P i s t := by
    intro u hu hp
    rw [h] at hu
    cases hu
    exact hp
  cases i
  case ret =>
    rcases execRet_cases s with ⟨a, e⟩ | ⟨k, a, e⟩
    · exact key _ e (on_ret_empty a)
    · exact key _ e (on_ret k a)
  case call n =>
    rcases execCall_cases n s with ⟨a, e⟩ | ⟨a, e⟩
    · exact key _ e (on_call_full n a)
    · exact key _ e (on_call n a)
  case skp n =>
    rcases execSkp_cases n s with ⟨a, e⟩ | ⟨k, a, e⟩
    · exact key _ e (on_skp_above n a)
    · exact key _ e (on_skp n k a)
  case sknp n =>
    rcases execSknp_cases n s with ⟨a, e⟩ | ⟨k, a, e⟩
    · exact key _ e (on_sknp_above n a)
    · exact key _ e (on_sknp n k a)
  case ldKey n =>
    rcases execLdKey_cases n s with ⟨a, e⟩ | ⟨k, _, _, e⟩
    · exact key _ e (on_ldKey_none n a)
    · exact key _ e (on_ldKey n k)
  case drw x y n => exact key _ rfl (on_drw ..)
  all_goals refine key _ rfl ?_
  all_goals first
    | exact on_cls | exact on_jp _ | exact on_jpV0 _ | exact on_seImm _ _ | exact on_sneImm _ _ | exact on_seReg _ _
    | exact on_sneReg _ _ | exact on_ldImm _ _ | exact on_addImm _ _ | exact on_ldReg _ _ | exact on_orReg _ _
    | exact on_andReg _ _ | exact on_xorReg _ _ | exact on_addReg _ _ | exact on_subReg _ _ | exact on_shr _
    | exact on_subnReg _ _ | exact on_shl _ | exact on_ldIndex _ | exact on_rnd _ _ | exact on_ldFromDelay _
    | exact on_ldDelay _ | exact on_ldSound _ | exact on_addIndex _ | exact on_ldGlyph _ | exact on_ldBcd _
    | exact on_storeRegs _ | exact on_loadRegs _

end Sys2Proof.Machine
end

