-- ==== Sys2Proof/Laws/Step.lean ====
section
/-! SUPPORT. What one transaction can do: the cases of a `Step` of the core, and the choice of the next transaction. -/

namespace Sys2Proof.Machine

/-- A halted core's `Step` changes nothing (R156). -/
theorem coreStep_halted {s : State} (h : s.halted = true) : coreStep s = .next s := by
  rw [coreStep, if_pos h]

/-- A running core executes what it decodes, at the state the fetch leaves (R188). -/
theorem coreStep_instr {s : State} (h : s.halted = false) {i : Instr}
    (hi : decode s.opcode = .instr i) :
    coreStep s = exec i s.afterFetch := by
  rw [coreStep, if_neg (by simp [h])]
  change (match decode s.fetch.1 with | .instr i => exec i s.fetch.2 | .unknownOpcode op => .next (s.fetch.2.raise .unknownOpcode op)) = _
  rw [State.fetch_eq]
  simp only [hi]

/-- A running core enters the fault `UnknownOpcode` on a word no row matches (R151). -/
theorem coreStep_unknown {s : State} (h : s.halted = false) {op : Word}
    (hi : decode s.opcode = .unknownOpcode op) :
    coreStep s =
      .next (s.afterFetch.raise .unknownOpcode op) := by
  rw [coreStep, if_neg (by simp [h])]
  change (match decode s.fetch.1 with | .instr i => exec i s.fetch.2 | .unknownOpcode op => .next (s.fetch.2.raise .unknownOpcode op)) = _
  rw [State.fetch_eq]
  simp only [hi]

/-- What a `Step` of the core can be: nothing, an executed instruction, or an unknown opcode. -/
theorem coreStep_cases (s : State) :
    (s.halted = true ∧ coreStep s = .next s) ∨
    (s.halted = false ∧ ∃ i, decode s.opcode = .instr i ∧
      coreStep s = exec i s.afterFetch) ∨
    (s.halted = false ∧ ∃ op, decode s.opcode = .unknownOpcode op ∧
      coreStep s =
        .next (s.afterFetch.raise .unknownOpcode op)) := by
  by_cases hh : s.halted = true
  · exact Or.inl ⟨hh, coreStep_halted hh⟩
  · have hf : s.halted = false := by simpa using hh
    cases hd : decode s.opcode with
    | instr i => exact Or.inr (Or.inl ⟨hf, i, rfl, coreStep_instr hf hd⟩)
    | unknownOpcode op => exact Or.inr (Or.inr ⟨hf, op, rfl, coreStep_unknown hf hd⟩)

/-- Choosing the next transaction touches nothing but the driver's plan. -/
theorem State.choose_snd (s : State) :
    s.choose.2 = { s with agenda := s.choose.2.agenda, onward := s.choose.2.onward } := by
  unfold State.choose
  split <;> rfl

/-- With a transaction on the agenda that one is next, and is taken off (R185). -/
theorem State.choose_agenda {s : State} {t : Transaction} {rest : List Transaction} (h : s.agenda = t :: rest) :
    s.choose = (t, { s with agenda := rest }) := by
  simp [State.choose, h]

/-- With nothing planned but `Step`s, a `Step` is next and the plan stays. -/
theorem State.choose_steps {s : State} (h : s.agenda = []) (ho : s.onward = .cycle []) : s.choose = (.step, s) := by
  simp [State.choose, h, ho]

/-- With an empty agenda and a block to repeat, the block's first is next and its rest becomes the agenda. -/
theorem State.choose_cycle {s : State} {t : Transaction} {rest : List Transaction} (h : s.agenda = [])
    (ho : s.onward = .cycle (t :: rest)) : s.choose = (t, { s with agenda := rest }) := by
  simp [State.choose, h, ho]

/-- With an empty agenda and the free sequence, its next transaction is next. -/
theorem State.choose_free {s : State} {turn : Nat} (h : s.agenda = []) (ho : s.onward = .free turn) :
    s.choose = (Config.schedule turn, { s with onward := .free (turn + 1) }) := by
  simp [State.choose, h, ho]

/-- A step serves the transaction chosen next. -/
theorem step_eq (s : State) : step s = transact s.choose.1 s.choose.2 := rfl

/-- An instruction decoded by a `Step` lies at `pc` at most 0xFFF: above, both bytes read 0 (R28). -/
theorem pc_le_of_decoded {s : State} {i : Instr}
    (hi : decode s.opcode = .instr i) : s.pc.toNat ≤ 0xFFF := by
  by_contra hnot
  rw [State.opcode, State.byteAt_above s (by omega), State.byteAt_above s (by omega)] at hi
  have : opcodeOf 0x00#8 0x00#8 = 0x0000#16 := by decide
  rw [this, decode_zero] at hi
  cases hi

end Sys2Proof.Machine
end

