-- ==== Sys2Proof/Laws/Driver.lean ====
section
/-! SUPPORT. What the transactions of the timer unit and the driver do, and that a placed opcode is the next one fetched. -/

namespace Sys2Proof.Machine

/-- Whatever a `Tick` does, it touches nothing but the timers and the events (R162). -/
theorem State.tick_eq (s : State) :
    s.tick = { s with delay := s.tick.delay, sound := s.tick.sound, events := s.tick.events } := by
  simp only [State.tick, State.tickDelay, State.tickSound]
  split
  · rfl
  · split <;> split <;> (try split) <;> rfl

/-- The delay timer after a `Tick` of a running core (R162). -/
theorem State.tick_delay {s : State} (h : s.halted = false) :
    s.tick.delay = if s.delay = 0#8 then 0#8 else s.delay - 1#8 := by
  simp only [State.tick, h, State.tickSound, State.tickDelay, Bool.false_eq_true, if_false]
  by_cases hd : s.delay = 0#8 <;> simp only [hd, if_true, if_false] <;> split <;> (try split) <;>
    simp [State.setDelay, State.setSound, State.emit, hd]

/-- The sound timer after a `Tick` of a running core (R162). -/
theorem State.tick_sound {s : State} (h : s.halted = false) :
    s.tick.sound = if s.sound = 0#8 then 0#8 else s.sound - 1#8 := by
  have hs : s.tickDelay.sound = s.sound := by
    unfold State.tickDelay
    split <;> rfl
  simp only [State.tick, h, State.tickSound, Bool.false_eq_true, if_false, hs]
  by_cases hd : s.sound = 0#8
  · simp only [hd, if_true, hs]
  · simp only [hd, if_false]
    split <;> rfl

/-- The events after a `Tick` of a running core: one `Beep` more when `sound` goes from 2 to 1 (R163). -/
theorem State.tick_events {s : State} (h : s.halted = false) :
    s.tick.events = s.events ++ (if s.sound = 2#8 then [.beep] else []) := by
  have hs : s.tickDelay.sound = s.sound := by
    unfold State.tickDelay
    split <;> rfl
  have he : s.tickDelay.events = s.events := by
    unfold State.tickDelay
    split <;> rfl
  have h21 : s.sound - 1#8 = 1#8 ↔ s.sound = 2#8 := by
    constructor
    · intro h1
      have := congrArg (· + 1#8) h1
      simpa using this
    · intro h2
      rw [h2]
      rfl
  simp only [State.tick, h, State.tickSound, Bool.false_eq_true, if_false, hs]
  by_cases hd : s.sound = 0#8
  · simp [hd, he]
  · simp only [hd, if_false, State.setSound_sound, h21]
    split <;> simp [State.emit, State.setSound, he]

/-- `SetKey` on a running core (R165). -/
theorem State.setKey_running {s : State} (h : s.halted = false) (k : Fin 16) (pressed : Bool) :
    s.setKey k pressed = { s with key := s.key.set k.val pressed } := by
  simp [State.setKey, h]

/-- `ClearDirty` on a running core (R134). -/
theorem State.clearDirty_running {s : State} (h : s.halted = false) : s.clearDirty = { s with dirty := false } := by
  simp [State.clearDirty, h]

/-- What `Load` can be: nothing on a halted core, a refusal, the image written directly after `Reset`, or the fault (R181, R182,
R189). -/
theorem load_cases (font rom : List Byte) (s : State) :
    (s.halted = true ∧ load font rom s = .next s) ∨
    (s.halted = false ∧ WellFormed.font font = false ∧ load font rom s = .refused (.fontSize font.length)) ∨
    (s.halted = false ∧ WellFormed.font font = true ∧ WellFormed.rom rom = false ∧
      load font rom s = .refused (.romTooLarge rom.length)) ∨
    (s.halted = false ∧ WellFormed.font font = true ∧ WellFormed.rom rom = true ∧ s = s.restart ∧
      load font rom s = .next (s.loadImage font rom)) ∨
    (s.halted = false ∧ WellFormed.font font = true ∧ WellFormed.rom rom = true ∧ s ≠ s.restart ∧
      load font rom s = .fault .loadOutsideLaunch) := by
  by_cases hh : s.halted = true
  · exact Or.inl ⟨hh, by rw [load, if_pos hh]⟩
  · have hh' : s.halted = false := by simpa using hh
    rw [load, if_neg hh]
    cases hf : WellFormed.font font with
    | false => exact Or.inr (Or.inl ⟨hh', rfl, if_pos rfl⟩)
    | true =>
      cases hr : WellFormed.rom rom with
      | false => exact Or.inr (Or.inr (Or.inl ⟨hh', rfl, rfl, by simp⟩))
      | true =>
        by_cases ha : s = s.restart
        · have e : s.atReset = true := decide_eq_true ha
          exact Or.inr (Or.inr (Or.inr (Or.inl ⟨hh', rfl, rfl, ha, by simp [e]⟩)))
        · have e : s.atReset = false := decide_eq_false ha
          exact Or.inr (Or.inr (Or.inr (Or.inr ⟨hh', rfl, rfl, ha, by simp [e]⟩)))

/-- The state directly after `Reset` stays there under another `Reset`. -/
@[simp] theorem State.restart_restart (s : State) : s.restart.restart = s.restart := rfl

/-- `Load` keeps the canonical form of memory. -/
theorem State.loadImage_wf (s : State) (font rom : List Byte) (h : s.mem.wf = true) :
    (s.loadImage font rom).mem.wf = true :=
  State.writeBytes_wf _ _ _ (State.writeBytes_wf _ _ _ h)

/-- The memory right after reset is in canonical form. -/
theorem State.reset_wf : State.reset.mem.wf = true := rfl

/-! ## The driver's plan (R185) -/

/-- No instruction touches the driver's plan. -/
theorem exec_plan {i : Instr} {s t : State} (h : exec i s = .next t) : t.agenda = s.agenda ∧ t.onward = s.onward := by
  apply exec_elim (P := fun _ s t => t.agenda = s.agenda ∧ t.onward = s.onward) h
  all_goals intros
  all_goals simp

/-- No transaction touches the driver's plan: only choosing one does. -/
theorem transact_plan {r : Transaction} {s t : State} (h : transact r s = .next t) :
    t.agenda = s.agenda ∧ t.onward = s.onward := by
  cases r with
  | reset => cases h; exact ⟨rfl, rfl⟩
  | load font rom =>
    change load font rom s = .next t at h
    rcases load_cases font rom s with ⟨_, e⟩ | ⟨_, _, e⟩ | ⟨_, _, _, e⟩ | ⟨_, _, _, _, e⟩ | ⟨_, _, _, _, e⟩ <;>
      rw [e] at h <;> cases h
    · exact ⟨rfl, rfl⟩
    · simp [State.loadImage]
  | step =>
    change coreStep s = .next t at h
    rcases coreStep_cases s with ⟨_, e⟩ | ⟨_, i, _, e⟩ | ⟨_, op, _, e⟩ <;> rw [e] at h
    · cases h; exact ⟨rfl, rfl⟩
    · simpa using exec_plan h
    · cases h; exact ⟨rfl, rfl⟩
  | tick => cases h; rw [State.tick_eq]; exact ⟨rfl, rfl⟩
  | setKey k pressed => cases h; simp only [State.setKey]; split <;> exact ⟨rfl, rfl⟩
  | isDirty => cases h; exact ⟨rfl, rfl⟩
  | clearDirty => cases h; simp only [State.clearDirty]; split <;> exact ⟨rfl, rfl⟩
  | pixelAt x y => cases h; exact ⟨rfl, rfl⟩

end Sys2Proof.Machine
end

