-- ==== Sys2Proof/Laws/PerInstr.lean ====
section
/-! SUPPORT. The family `InstrRow`: the canonical word of an instruction belongs to that instruction's row of the opcode map
(R65), one lemma per constructor. -/

namespace Sys2Proof.Laws.InstrRow

/-- The canonical word of the instruction has the bits its row fixes. -/
def Statement (i : Instr) : Prop := (rowOf i).selects (encode i) = true

/-- A masked word compared bit by bit. -/
theorem selects_of_bits {r : Row} {op : Word} (h : ∀ k, k < 16 → (op &&& r.mask).getLsbD k = r.value.getLsbD k) :
    r.selects op = true := by
  rw [Row.selects, beq_iff_eq]
  exact BitVec.eq_of_getLsbD_eq h

theorem cls : Statement (.cls) := by unfold Statement; decide

theorem ret : Statement (.ret) := by unfold Statement; decide

theorem jp (nnn : Addr12) : Statement (.jp nnn) := by
  refine selects_of_bits fun k hk => ?_
  interval_cases k <;> simp [rowOf, encode, wordNNN]

theorem call (nnn : Addr12) : Statement (.call nnn) := by
  refine selects_of_bits fun k hk => ?_
  interval_cases k <;> simp [rowOf, encode, wordNNN]

theorem seImm (x : Nibble) (nn : Byte) : Statement (.seImm x nn) := by
  refine selects_of_bits fun k hk => ?_
  interval_cases k <;> simp [rowOf, encode, wordXNN]

theorem sneImm (x : Nibble) (nn : Byte) : Statement (.sneImm x nn) := by
  refine selects_of_bits fun k hk => ?_
  interval_cases k <;> simp [rowOf, encode, wordXNN]

theorem seReg (x : Nibble) (y : Nibble) : Statement (.seReg x y) := by
  refine selects_of_bits fun k hk => ?_
  interval_cases k <;> simp [rowOf, encode, wordXYN]

theorem sneReg (x : Nibble) (y : Nibble) : Statement (.sneReg x y) := by
  refine selects_of_bits fun k hk => ?_
  interval_cases k <;> simp [rowOf, encode, wordXYN]

theorem ldImm (x : Nibble) (nn : Byte) : Statement (.ldImm x nn) := by
  refine selects_of_bits fun k hk => ?_
  interval_cases k <;> simp [rowOf, encode, wordXNN]

theorem addImm (x : Nibble) (nn : Byte) : Statement (.addImm x nn) := by
  refine selects_of_bits fun k hk => ?_
  interval_cases k <;> simp [rowOf, encode, wordXNN]

theorem ldReg (x : Nibble) (y : Nibble) : Statement (.ldReg x y) := by
  refine selects_of_bits fun k hk => ?_
  interval_cases k <;> simp [rowOf, encode, wordXYN]

theorem orReg (x : Nibble) (y : Nibble) : Statement (.orReg x y) := by
  refine selects_of_bits fun k hk => ?_
  interval_cases k <;> simp [rowOf, encode, wordXYN]

theorem andReg (x : Nibble) (y : Nibble) : Statement (.andReg x y) := by
  refine selects_of_bits fun k hk => ?_
  interval_cases k <;> simp [rowOf, encode, wordXYN]

theorem xorReg (x : Nibble) (y : Nibble) : Statement (.xorReg x y) := by
  refine selects_of_bits fun k hk => ?_
  interval_cases k <;> simp [rowOf, encode, wordXYN]

theorem addReg (x : Nibble) (y : Nibble) : Statement (.addReg x y) := by
  refine selects_of_bits fun k hk => ?_
  interval_cases k <;> simp [rowOf, encode, wordXYN]

theorem subReg (x : Nibble) (y : Nibble) : Statement (.subReg x y) := by
  refine selects_of_bits fun k hk => ?_
  interval_cases k <;> simp [rowOf, encode, wordXYN]

theorem shr (x : Nibble) : Statement (.shr x) := by
  refine selects_of_bits fun k hk => ?_
  interval_cases k <;> simp [rowOf, encode, wordXYN]

theorem subnReg (x : Nibble) (y : Nibble) : Statement (.subnReg x y) := by
  refine selects_of_bits fun k hk => ?_
  interval_cases k <;> simp [rowOf, encode, wordXYN]

theorem shl (x : Nibble) : Statement (.shl x) := by
  refine selects_of_bits fun k hk => ?_
  interval_cases k <;> simp [rowOf, encode, wordXYN]

theorem ldIndex (nnn : Addr12) : Statement (.ldIndex nnn) := by
  refine selects_of_bits fun k hk => ?_
  interval_cases k <;> simp [rowOf, encode, wordNNN]

theorem jpV0 (nnn : Addr12) : Statement (.jpV0 nnn) := by
  refine selects_of_bits fun k hk => ?_
  interval_cases k <;> simp [rowOf, encode, wordNNN]

theorem rnd (x : Nibble) (nn : Byte) : Statement (.rnd x nn) := by
  refine selects_of_bits fun k hk => ?_
  interval_cases k <;> simp [rowOf, encode, wordXNN]

theorem drw (x : Nibble) (y : Nibble) (n : Nibble) : Statement (.drw x y n) := by
  refine selects_of_bits fun k hk => ?_
  interval_cases k <;> simp [rowOf, encode, wordXYN]

theorem skp (x : Nibble) : Statement (.skp x) := by
  refine selects_of_bits fun k hk => ?_
  interval_cases k <;> simp [rowOf, encode, wordXNN]

theorem sknp (x : Nibble) : Statement (.sknp x) := by
  refine selects_of_bits fun k hk => ?_
  interval_cases k <;> simp [rowOf, encode, wordXNN]

theorem ldFromDelay (x : Nibble) : Statement (.ldFromDelay x) := by
  refine selects_of_bits fun k hk => ?_
  interval_cases k <;> simp [rowOf, encode, wordXNN]

theorem ldKey (x : Nibble) : Statement (.ldKey x) := by
  refine selects_of_bits fun k hk => ?_
  interval_cases k <;> simp [rowOf, encode, wordXNN]

theorem ldDelay (x : Nibble) : Statement (.ldDelay x) := by
  refine selects_of_bits fun k hk => ?_
  interval_cases k <;> simp [rowOf, encode, wordXNN]

theorem ldSound (x : Nibble) : Statement (.ldSound x) := by
  refine selects_of_bits fun k hk => ?_
  interval_cases k <;> simp [rowOf, encode, wordXNN]

theorem addIndex (x : Nibble) : Statement (.addIndex x) := by
  refine selects_of_bits fun k hk => ?_
  interval_cases k <;> simp [rowOf, encode, wordXNN]

theorem ldGlyph (x : Nibble) : Statement (.ldGlyph x) := by
  refine selects_of_bits fun k hk => ?_
  interval_cases k <;> simp [rowOf, encode, wordXNN]

theorem ldBcd (x : Nibble) : Statement (.ldBcd x) := by
  refine selects_of_bits fun k hk => ?_
  interval_cases k <;> simp [rowOf, encode, wordXNN]

theorem storeRegs (x : Nibble) : Statement (.storeRegs x) := by
  refine selects_of_bits fun k hk => ?_
  interval_cases k <;> simp [rowOf, encode, wordXNN]

theorem loadRegs (x : Nibble) : Statement (.loadRegs x) := by
  refine selects_of_bits fun k hk => ?_
  interval_cases k <;> simp [rowOf, encode, wordXNN]

end Sys2Proof.Laws.InstrRow
end

