-- ==== Sys2Proof/Tests/Slice0.lean ====
section
/-! SUPPORT. Tests. Expected results are the vectors of spec/95_test_vectors.md (named by their ids there) or worked by hand
from the rule named. Each runs ONE step. After them, for every statement of Certificates/Slice0/Obligations.lean with hypotheses,
a witness that meets them, at the ends of their ranges. -/

namespace Sys2Proof.Tests

open Sys2Proof Sys2Proof.Machine

/-- Reset, then the listed registers written. -/
def start (regs : List (Nibble × Byte)) : State := regs.foldl (fun s r => s.setReg r.1 r.2) State.reset

/-- One step that fetches and runs the word. -/
def run (op : Word) (s : State) : Result := step (s.withFetchWord 16 op.toNat)

/-- What is seen of a next state. -/
def see {α : Type} (r : Result) (f : State → α) : Option α :=
  match r with
  | .next t => some (f t)
  | _ => none

/-- `start` with `I` = 0x0300 and bytes stored there. -/
def sprite (regs : List (Nibble × Byte)) (bytes : List Byte) : State :=
  { (start regs) with index := 0x0300#16 }.writeBytes 0x300 bytes

/-- The state of S1's key vectors: some keys pressed. -/
def pressed (regs : List (Nibble × Byte)) (keys : List (Fin 16)) : State :=
  keys.foldl (fun s k => s.setKey k true) (start regs)

/-! ## WellFormed smoke: an ill-formed input for each check -/

/-- R181: 79 bytes are no font, 80 are. -/
theorem test_font_of_79_bytes_refused :
    WellFormed.font (List.replicate 79 0#8) = false ∧ WellFormed.font (List.replicate 80 0#8) = true := by decide

/-- R182: 3584 bytes are no ROM, 3583 are. -/
theorem test_rom_of_3584_bytes_refused :
    WellFormed.rom (List.replicate 3584 0#8) = false ∧ WellFormed.rom (List.replicate 3583 0#8) = true := by
  simp only [WellFormed.rom, List.length_replicate]
  decide

/-- R44: the default font is well formed. -/
theorem test_default_font_well_formed : WellFormed.font defaultFont = true := by decide

/-! ## Decode: a word written out from the encoding of every row (R65; E1 to E12) -/

theorem test_decode_group0 :
    decode 0x00E0#16 = .instr .cls ∧ decode 0x00EE#16 = .instr .ret := by decide

theorem test_decode_nnn :
    decode 0x1ABC#16 = .instr (.jp 0xABC#12) ∧ decode 0x2F01#16 = .instr (.call 0xF01#12) ∧
    decode 0xA123#16 = .instr (.ldIndex 0x123#12) ∧ decode 0xBFFF#16 = .instr (.jpV0 0xFFF#12) := by decide

theorem test_decode_xnn :
    decode 0x31FE#16 = .instr (.seImm 0x1#4 0xFE#8) ∧ decode 0x4E7D#16 = .instr (.sneImm 0xE#4 0x7D#8) ∧
    decode 0x6A2B#16 = .instr (.ldImm 0xA#4 0x2B#8) ∧ decode 0x7102#16 = .instr (.addImm 0x1#4 0x02#8) ∧
    decode 0xC50F#16 = .instr (.rnd 0x5#4 0x0F#8) := by decide

/-- R67: the low nibble of groups 5 and 9 is ignored. -/
theorem test_decode_xy_skips :
    decode 0x512F#16 = .instr (.seReg 0x1#4 0x2#4) ∧ decode 0x9AB7#16 = .instr (.sneReg 0xA#4 0xB#4) := by decide

theorem test_decode_group8 :
    decode 0x8120#16 = .instr (.ldReg 0x1#4 0x2#4) ∧ decode 0x8341#16 = .instr (.orReg 0x3#4 0x4#4) ∧
    decode 0x8562#16 = .instr (.andReg 0x5#4 0x6#4) ∧ decode 0x8783#16 = .instr (.xorReg 0x7#4 0x8#4) ∧
    decode 0x8AB4#16 = .instr (.addReg 0xA#4 0xB#4) ∧ decode 0x8CD5#16 = .instr (.subReg 0xC#4 0xD#4) ∧
    decode 0x8EF7#16 = .instr (.subnReg 0xE#4 0xF#4) := by decide

/-- R69: `y` is ignored in the shifts. -/
theorem test_decode_shifts :
    decode 0x81A6#16 = .instr (.shr 0x1#4) ∧ decode 0x812E#16 = .instr (.shl 0x1#4) := by decide

theorem test_decode_drw_and_groupE :
    decode 0xD125#16 = .instr (.drw 0x1#4 0x2#4 0x5#4) ∧ decode 0xE29E#16 = .instr (.skp 0x2#4) ∧
    decode 0xE2A1#16 = .instr (.sknp 0x2#4) := by decide

theorem test_decode_groupF :
    decode 0xF107#16 = .instr (.ldFromDelay 0x1#4) ∧ decode 0xF20A#16 = .instr (.ldKey 0x2#4) ∧
    decode 0xF315#16 = .instr (.ldDelay 0x3#4) ∧ decode 0xF418#16 = .instr (.ldSound 0x4#4) ∧
    decode 0xF51E#16 = .instr (.addIndex 0x5#4) ∧ decode 0xF629#16 = .instr (.ldGlyph 0x6#4) ∧
    decode 0xF733#16 = .instr (.ldBcd 0x7#4) ∧ decode 0xF855#16 = .instr (.storeRegs 0x8#4) ∧
    decode 0xF365#16 = .instr (.loadRegs 0x3#4) := by decide

/-- X1 to X8: words no row matches. -/
theorem test_decode_unknown_words :
    let words := [0x0000#16, 0x8128#16, 0x812F#16, 0xE19F#16, 0xF1FF#16, 0x00E1#16, 0x01E0#16, 0x0123#16]
    words.map decode = words.map .unknownOpcode := by decide

/-- R47: the byte at the lower address is the high byte. -/
theorem test_opcode_is_big_endian :
    opcodeOf 0x1A#8 0xBC#8 = 0x1ABC#16 ∧ opcodeBytes 0x1ABC#16 = [0x1A#8, 0xBC#8] := by decide

theorem test_decodeTableWord : decodeTableWord 16 0x1ABC = some (.jp 0xABC#12) := by decide

/-! ## Display -/

/-- G1: the pixel (5,5) is turned off and `dirty` set. -/
theorem test_cls : see (run 0x00E0#16 { State.reset with disp := Display.blank.toggle 5 5 })
    (fun t => (t.pixelAt 5 5, t.dirty, t.pc)) = some (false, true, 0x0202#16) := by decide

/-- G4: columns wrap: 60 to 63 and 0 to 3 are lit, 59 and 4 are not. -/
theorem test_drw_wraps_columns : see (run 0xD011#16 (sprite [(0x0, 60), (0x1, 0), (0xF, 0x5A)] [0xFF]))
    (fun t => ([59, 60, 63, 0, 3, 4].map fun x => t.pixelAt x 0, t.reg 0xF, t.pc))
    = some ([false, true, true, true, true, false], 0x00, 0x0202) := by decide

/-- G7: a collision turns (0,0) off, sets `VF`; (1,0) is turned on. -/
theorem test_drw_collides :
    see (run 0xD011#16 { (sprite [] [0xC0]) with disp := Display.blank.toggle 0 0 })
      (fun t => (t.pixelAt 0 0, t.pixelAt 1 0, t.reg 0xF, t.dirty)) = some (false, true, 1, true) := by decide

/-- G10: the origin is latched before `VF` is cleared. -/
theorem test_drw_latches_origin : see (run 0xDF11#16 (sprite [(0xF, 5), (0x1, 2)] [0x80]))
    (fun t => (t.pixelAt 5 2, t.pixelAt 0 2, t.reg 0xF)) = some (true, false, 0) := by decide

/-- G9: a row above 0xFFF reads 0 with a diagnostic. -/
theorem test_drw_above_memory :
    see (run 0xD012#16 ({ State.reset with index := 0x0FFF }.writeBytes 0xFFF [0x80]))
      (fun t => (t.pixelAt 0 0, t.pixelAt 0 1, t.reg 0xF, t.events)) = some (true, false, 0, [.diag 0x1000 .read]) := by decide

/-! ## Control transfer -/

/-- F7: the slot below the top is popped, plus 2. -/
theorem test_ret : see (run 0x00EE#16 { State.reset with pc := 0x0300, sp := 16, stack := State.reset.stack.set 15 0x0400 })
    (fun t => (t.sp, t.pc, t.stack[15])) = some (15, 0x0402, 0x0400) := by decide

/-- X10: an empty stack is a fault, with `pc` unchanged. -/
theorem test_ret_empty : see (run 0x00EE#16 State.reset) (fun t => (t.halted, t.fault, t.pc))
    = some (true, some ⟨.stackUnderflow, 0x00EE, 0x0200⟩, 0x0200) := by decide

/-- F1. -/
theorem test_jp : see (run 0x1ABC#16 State.reset) (fun t => t.pc) = some 0x0ABC := by decide

/-- F5: the sixteenth slot. -/
theorem test_call : see (run 0x2ABC#16 { State.reset with pc := 0x0400, sp := 15 })
    (fun t => (t.stack[15], t.sp, t.pc)) = some (0x0400, 16, 0x0ABC) := by decide

/-- X9: a full stack is a fault. -/
theorem test_call_full : see (run 0x2300#16 { State.reset with sp := 16 }) (fun t => (t.fault, t.sp, t.pc))
    = some (some ⟨.stackOverflow, 0x2300, 0x0200⟩, 16, 0x0200) := by decide

/-- F10: the target leaves memory. -/
theorem test_jpV0 : see (run 0xBFFF#16 (start [(0x0, 0xFF)])) (fun t => (t.pc, t.halted)) = some (0x10FE, false) := by decide

/-- F9: `V[1]` plays no part. -/
theorem test_jpV0_uses_V0 : see (run 0xB1FF#16 (start [(0x0, 1), (0x1, 0x55)])) (fun t => t.pc) = some 0x0200 := by decide

/-! ## Skips -/

/-- K1, K2. -/
theorem test_seImm : see (run 0x3000#16 State.reset) (fun t => t.pc) = some 0x0204 ∧
    see (run 0x3000#16 (start [(0x0, 1)])) (fun t => t.pc) = some 0x0202 := by decide

/-- K3, K4. -/
theorem test_sneImm : see (run 0x4310#16 (start [(0x3, 0x10)])) (fun t => t.pc) = some 0x0202 ∧
    see (run 0x4310#16 (start [(0x3, 0x11)])) (fun t => t.pc) = some 0x0204 := by decide

/-- K6, K7. -/
theorem test_seReg : see (run 0x512F#16 (start [(0x1, 0x7F), (0x2, 0x7F)])) (fun t => t.pc) = some 0x0204 ∧
    see (run 0x5120#16 (start [(0x1, 1), (0x2, 2)])) (fun t => t.pc) = some 0x0202 := by decide

/-- K9, K10. -/
theorem test_sneReg : see (run 0x9120#16 (start [(0x1, 1), (0x2, 2)])) (fun t => t.pc) = some 0x0204 ∧
    see (run 0x9125#16 (start [(0x1, 9), (0x2, 9)])) (fun t => t.pc) = some 0x0202 := by decide

/-- K12, K13. -/
theorem test_skp : see (run 0xE29E#16 (pressed [(0x2, 0x0A)] [10])) (fun t => t.pc) = some 0x0204 ∧
    see (run 0xE29E#16 (start [(0x2, 0x0A)])) (fun t => t.pc) = some 0x0202 := by decide

/-- K14, K15. -/
theorem test_sknp : see (run 0xE2A1#16 (pressed [(0x2, 0x0A)] [10])) (fun t => t.pc) = some 0x0202 ∧
    see (run 0xE2A1#16 (start [(0x2, 0x0F)])) (fun t => t.pc) = some 0x0204 := by decide

/-- X11, X12. -/
theorem test_key_number_faults :
    see (run 0xE19E#16 (start [(0x1, 0x10)])) (fun t => (t.fault, t.pc))
      = some (some ⟨.keyIndexOutOfRange, 0xE19E, 0x0200⟩, 0x0200) ∧
    see (run 0xE1A1#16 (start [(0x1, 0xFF)])) (fun t => (t.fault, t.pc))
      = some (some ⟨.keyIndexOutOfRange, 0xE1A1, 0x0200⟩, 0x0200) := by decide

/-! ## Load, arithmetic, logic, shift, random -/

/-- A1. -/
theorem test_ldImm : see (run 0x6A2B#16 (start [(0xF, 0x5A)])) (fun t => (t.reg 0xA, t.reg 0xF, t.pc))
    = some (0x2B, 0x5A, 0x0202) := by decide

/-- A3, A5. -/
theorem test_addImm : see (run 0x7102#16 (start [(0x1, 0xFF), (0xF, 0x5A)])) (fun t => (t.reg 0x1, t.reg 0xF))
      = some (0x01, 0x5A) ∧
    see (run 0x7F01#16 (start [(0xF, 0xFF)])) (fun t => t.reg 0xF) = some 0x00 := by decide

/-- A6. -/
theorem test_ldReg : see (run 0x8120#16 (start [(0x2, 0x33), (0xF, 0x5A)])) (fun t => (t.reg 0x1, t.reg 0xF))
    = some (0x33, 0x5A) := by decide

/-- A7. -/
theorem test_orReg : see (run 0x8121#16 (start [(0x1, 0xF0), (0x2, 0x0F), (0xF, 0x5A)])) (fun t => (t.reg 0x1, t.reg 0xF))
    = some (0xFF, 0x5A) := by decide

/-- A8. -/
theorem test_andReg : see (run 0x8122#16 (start [(0x1, 0xF3), (0x2, 0x3F), (0xF, 0x5A)])) (fun t => (t.reg 0x1, t.reg 0xF))
    = some (0x33, 0x5A) := by decide

/-- A9. -/
theorem test_xorReg : see (run 0x8123#16 (start [(0x1, 0xFF), (0x2, 0x0F), (0xF, 0x5A)])) (fun t => (t.reg 0x1, t.reg 0xF))
    = some (0xF0, 0x5A) := by decide

/-- A12, and A14: the result is written last. -/
theorem test_addReg : see (run 0x8124#16 (start [(0x1, 0xFF), (0x2, 0xFF)])) (fun t => (t.reg 0x1, t.reg 0xF))
      = some (0xFE, 1) ∧
    see (run 0x8F14#16 (start [(0xF, 0x80), (0x1, 0x90)])) (fun t => t.reg 0xF) = some 0x10 := by decide

/-- A11: the greatest sum without carry. -/
theorem test_addReg_no_carry : see (run 0x8124#16 (start [(0x1, 0xFF), (0xF, 0x5A)])) (fun t => (t.reg 0x1, t.reg 0xF))
    = some (0xFF, 0) := by decide

/-- A16: equal operands leave the flag 0; S4: 3 - 5 wraps. -/
theorem test_subReg : see (run 0x8125#16 (start [(0x1, 7), (0x2, 7)])) (fun t => (t.reg 0x1, t.reg 0xF)) = some (0, 0) ∧
    see (run 0x8125#16 (start [(0x1, 3), (0x2, 5)])) (fun t => (t.reg 0x1, t.reg 0xF)) = some (0xFE, 0) := by decide

/-- A19, A20: operands are latched. -/
theorem test_subReg_latches : see (run 0x8F15#16 (start [(0xF, 9), (0x1, 4)])) (fun t => t.reg 0xF) = some 5 ∧
    see (run 0x81F5#16 (start [(0x1, 9), (0xF, 4)])) (fun t => (t.reg 0x1, t.reg 0xF)) = some (5, 1) := by decide

/-- A21: the source is `V[1]`. -/
theorem test_shr : see (run 0x8126#16 (start [(0x1, 0x05), (0x2, 0xFF)])) (fun t => (t.reg 0x1, t.reg 0xF, t.reg 0x2))
    = some (0x02, 1, 0xFF) := by decide

/-- A25. -/
theorem test_shr_of_VF : see (run 0x8F06#16 (start [(0xF, 0x03)])) (fun t => t.reg 0xF) = some 0x01 := by decide

/-- A26, A27. -/
theorem test_subnReg : see (run 0x8127#16 (start [(0x1, 3), (0x2, 5)])) (fun t => (t.reg 0x1, t.reg 0xF)) = some (2, 1) ∧
    see (run 0x8127#16 (start [(0x1, 5), (0x2, 3)])) (fun t => (t.reg 0x1, t.reg 0xF)) = some (0xFE, 0) := by decide

/-- A29, A30. -/
theorem test_shl : see (run 0x812E#16 (start [(0x1, 0x81)])) (fun t => (t.reg 0x1, t.reg 0xF)) = some (0x02, 1) ∧
    see (run 0x810E#16 (start [(0x1, 0x40), (0xF, 0x5A)])) (fun t => (t.reg 0x1, t.reg 0xF)) = some (0x80, 0) := by decide

/-- A35, whatever the byte drawn; one byte is drawn. -/
theorem test_rnd_takes_the_byte_drawn : see (run 0xC1FF#16 (start [(0xF, 0x5A)])) (fun t => (t.reg 0x1, t.reg 0xF, t.draws))
    = some (Config.randomByte 0 &&& 0xFF, 0x5A, 1) := rfl

/-! ## Index register and memory -/

/-- M2. -/
theorem test_ldIndex : see (run 0xAFFF#16 State.reset) (fun t => (t.index, t.pc)) = some (0x0FFF, 0x0202) := by decide

/-- M3, M4. -/
theorem test_addIndex :
    see (run 0xF11E#16 { (start [(0x1, 5), (0xF, 0x5A)]) with index := 0x0FFE }) (fun t => (t.index, t.reg 0xF))
      = some (0x1003, 0x5A) ∧
    see (run 0xF11E#16 { (start [(0x1, 2), (0xF, 0x5A)]) with index := 0xFFFF }) (fun t => (t.index, t.reg 0xF))
      = some (0x0001, 0x5A) := by decide

/-- M8, M9: the value is not masked to a digit. -/
theorem test_ldGlyph : see (run 0xF329#16 (start [(0x3, 0x10)])) (fun t => t.index) = some 0x0050 ∧
    see (run 0xF329#16 (start [(0x3, 0xFF)])) (fun t => t.index) = some 0x04FB := by decide

/-- S6. -/
theorem test_ldBcd : see (run 0xF033#16 (sprite [(0x0, 157)] []))
    (fun t => (t.byteAt 0x300, t.byteAt 0x301, t.byteAt 0x302, t.index)) = some (1, 5, 7, 0x0300) := by decide

/-- M14: the digit past the top is dropped. -/
theorem test_ldBcd_at_top : see (run 0xF033#16 { (start [(0x0, 123)]) with index := 0x0FFE })
    (fun t => (t.byteAt 0xFFE, t.byteAt 0xFFF, t.events, t.index)) = some (1, 2, [.diag 0x1000 .write], 0x0FFE) := by decide

/-- M15: `x` = 0 stores one byte. -/
theorem test_storeRegs : see (run 0xF055#16 (sprite [(0x0, 0xAB)] [0x00, 0x77]))
    (fun t => (t.byteAt 0x300, t.byteAt 0x301, t.index)) = some (0xAB, 0x77, 0x0300) := by decide

/-- M17. -/
theorem test_storeRegs_at_top : see (run 0xF155#16 { (start [(0x0, 0x11), (0x1, 0x22)]) with index := 0x0FFF })
    (fun t => (t.byteAt 0xFFF, t.events)) = some (0x11, [.diag 0x1000 .write]) := by decide

/-- M18. -/
theorem test_loadRegs : see (run 0xF265#16 (sprite [(0x3, 0x99)] [1, 5, 7]))
    (fun t => (t.reg 0x0, t.reg 0x1, t.reg 0x2, t.reg 0x3, t.index)) = some (1, 5, 7, 0x99, 0x0300) := by decide

/-- M20: addresses are not truncated to 16 bits. -/
theorem test_loadRegs_past_FFFF : see (run 0xF165#16 { (start [(0x0, 0x99), (0x1, 0x99)]) with index := 0xFFFF })
    (fun t => (t.reg 0x0, t.reg 0x1, t.events)) = some (0, 0, [.diag 0xFFFF .read, .diag 0x10000 .read]) := by decide

/-! ## Timers and keys -/

/-- T1. -/
theorem test_ldFromDelay : see (run 0xF307#16 { State.reset with delay := 0x2A }) (fun t => (t.reg 0x3, t.pc))
    = some (0x2A, 0x0202) := by decide

/-- T11. -/
theorem test_ldKey : see (run 0xF10A#16 (pressed [] [3, 10])) (fun t => (t.reg 0x1, t.pc)) = some (0x0A, 0x0202) := by decide

/-- T12. -/
theorem test_ldKey_stalls : see (run 0xF10A#16 { (start [(0x1, 0x77)]) with pc := 0x0206 }) (fun t => (t.reg 0x1, t.pc))
    = some (0x77, 0x0206) := by decide

/-- T2. -/
theorem test_ldDelay : see (run 0xF015#16 (start [(0x0, 0x3C)])) (fun t => (t.delay, t.pc)) = some (0x3C, 0x0202) := by decide

/-- T3. -/
theorem test_ldSound : see (run 0xF018#16 (start [(0x0, 3)])) (fun t => (t.sound, t.events, t.pc))
    = some (3, [], 0x0202) := by decide

/-- T5, T6: one `Tick` from the agenda. -/
theorem test_tick : see (step { State.reset with delay := 1, sound := 2, agenda := [.tick, .reset] })
    (fun t => (t.delay, t.sound, t.events, t.agenda)) = some (0, 1, [.beep], [.reset]) := by decide

/-- T7, T8: no `Beep` at 1 or at 0. -/
theorem test_tick_no_beep : see (transact .tick { State.reset with sound := 1 }) (fun t => (t.sound, t.events)) = some (0, []) ∧
    see (transact .tick State.reset) (fun t => (t.sound, t.events)) = some (0, []) := by decide

/-! ## Driver, reset, the halted core -/

/-- T15. -/
theorem test_setKey : see (transact (.setKey 4 true) State.reset) (fun t => (t.key[4], t.key[5])) = some (true, false) ∧
    see (transact (.setKey 4 false) (pressed [] [4])) (fun t => t.key[4]) = some false := by decide

/-- T16. -/
theorem test_clearDirty : see (transact .clearDirty { State.reset with dirty := true }) (fun t => t.isDirty) = some false := by
  decide

/-- T17: a halted core ignores everything but `Reset`. -/
theorem test_halted_ignores :
    see (transact .tick { State.reset with halted := true, delay := 5 }) (fun t => t.delay) = some 5 ∧
    see (transact (.setKey 1 true) { State.reset with halted := true }) (fun t => t.key[1]) = some false ∧
    see (transact .clearDirty { State.reset with halted := true, dirty := true }) (fun t => t.dirty) = some true ∧
    see (transact .step { State.reset with halted := true }) (fun t => t.fault) = some none := by decide

/-- R157: `Reset` leaves the halted state. -/
theorem test_reset_leaves_halted :
    see (transact .reset { State.reset with halted := true, pc := 0x0ABC, delay := 5 }) (fun t => (t.halted, t.pc, t.delay))
      = some (false, 0x0200, 0) := by decide

/-- R27: the first and the last byte of FONT, then ROM at 0x200; 0x50 stays 0. -/
theorem test_load : see (transact (.load defaultFont [0x12, 0x34]) State.reset)
    (fun t => (t.byteAt 0x000, t.byteAt 0x04F, t.byteAt 0x050, t.byteAt 0x200, t.byteAt 0x201))
    = some (0xF0, 0x80, 0, 0x12, 0x34) := by decide

/-- X1: with nothing placed, the first step after reset halts on the word 0x0000. -/
theorem test_step_from_reset_halts : see (step State.reset) (fun t => (t.halted, t.fault, t.pc))
    = some (true, some ⟨.unknownOpcode, 0x0000, 0x0200⟩, 0x0200) := by decide

/-- X14. -/
theorem test_step_at_1000 : see (step { State.reset with pc := 0x1000 }) (fun t => (t.fault, t.events))
    = some (some ⟨.unknownOpcode, 0x0000, 0x1000⟩, [.diag 0x1000 .read, .diag 0x1001 .read]) := by decide

/-- X15: an opcode whose second byte lies above memory. -/
theorem test_step_at_0FFF : see (step ({ (start [(0x0, 9)]) with pc := 0x0FFF }.writeBytes 0xFFF [0x60]))
    (fun t => (t.reg 0x0, t.pc, t.events)) = some (0, 0x1001, [.diag 0x1000 .read]) := by decide

/-- The codes R150 prints. -/
theorem test_fault_numbers : [FaultCode.unknownOpcode, .stackOverflow, .stackUnderflow, .keyIndexOutOfRange].map
    FaultCode.number = [1, 2, 3, 4] := by decide

/-! ## Witnesses: for each statement with hypotheses, values that meet them -/

/-- The encoding hypotheses `op &&& mask = match` of every statement, each met by a word with its operand bits all ones, or,
where the row ignores bits, with those ones too. -/
theorem test_witness_masks :
    ([(0x1FFF, 0xF000, 0x1000), (0x2FFF, 0xF000, 0x2000), (0x3FFF, 0xF000, 0x3000), (0x4FFF, 0xF000, 0x4000),
      (0x5FFF, 0xF000, 0x5000), (0x6FFF, 0xF000, 0x6000), (0x7FFF, 0xF000, 0x7000), (0x9FFF, 0xF000, 0x9000),
      (0xAFFF, 0xF000, 0xA000), (0xBFFF, 0xF000, 0xB000), (0xCFFF, 0xF000, 0xC000), (0xDFFF, 0xF000, 0xD000),
      (0x8FF0, 0xF00F, 0x8000), (0x8FF1, 0xF00F, 0x8001), (0x8FF2, 0xF00F, 0x8002), (0x8FF3, 0xF00F, 0x8003),
      (0x8FF4, 0xF00F, 0x8004), (0x8FF5, 0xF00F, 0x8005), (0x8FF6, 0xF00F, 0x8006), (0x8FF7, 0xF00F, 0x8007),
      (0x8FFE, 0xF00F, 0x800E), (0xEF9E, 0xF0FF, 0xE09E), (0xEFA1, 0xF0FF, 0xE0A1), (0xFF07, 0xF0FF, 0xF007),
      (0xFF0A, 0xF0FF, 0xF00A), (0xFF15, 0xF0FF, 0xF015), (0xFF18, 0xF0FF, 0xF018), (0xFF1E, 0xF0FF, 0xF01E),
      (0xFF29, 0xF0FF, 0xF029), (0xFF33, 0xF0FF, 0xF033), (0xFF55, 0xF0FF, 0xF055), (0xFF65, 0xF0FF, 0xF065)] :
      List (Word × Word × Word)).all (fun q => q.1 &&& q.2.1 == q.2.2) = true := by decide

/-- Two draws whose first leaves the origin's registers alone. -/
theorem test_witness_DrawingTwiceRestoresDisplay : ∃ s t u : State, exec (.drw 0x0 0x1 0x1) s = .next t ∧
    t.reg 0x0 = s.reg 0x0 ∧ t.reg 0x1 = s.reg 0x1 ∧ exec (.drw 0x0 0x1 0x1) t = .next u ∧ u.reg 0xF = 1 :=
  ⟨sprite [(0x0, 10), (0x1, 5)] [0x80], _, _, rfl, by decide, by decide, rfl, by decide⟩

/-- Depths 1 and 16. -/
theorem test_witness_RetResumesAfterTheCall : ({ State.reset with sp := 1 } : State).sp.val = (0 : Fin 16).val + 1 ∧
    ({ State.reset with sp := 16 } : State).sp.val = (15 : Fin 16).val + 1 := by decide

/-- Depths 0 and 15. -/
theorem test_witness_CallPushesItsOwnAddress : State.reset.sp.val = (0 : Fin 16).val ∧
    ({ State.reset with sp := 15 } : State).sp.val = (15 : Fin 16).val := by decide

/-- Targets 0x1000, the first above memory, and 0x10FE, the last. -/
theorem test_witness_JpV0AddsRegisterZero : (start [(0x0, 1)]).halted = false ∧
    see (exec (.jpV0 0xFFF) (start [(0x0, 1)])) (fun t => decide (0x0FFF < t.pc.toNat)) = some true ∧
    see (exec (.jpV0 0xFFF) (start [(0x0, 0xFF)])) (fun t => decide (0x0FFF < t.pc.toNat)) = some true := by decide

/-- An equal and an unequal immediate. -/
theorem test_witness_ImmediateSkipsCompare : (start [(0x3, 0x10)]).reg 0x3 = 0x10 ∧ (start [(0x3, 0x11)]).reg 0x3 ≠ 0x10 := by
  decide

/-- Equal and unequal registers, and `x` = `y`. -/
theorem test_witness_RegisterSkipsCompare : (start [(0x1, 9), (0x2, 9)]).reg 0x1 = (start [(0x1, 9), (0x2, 9)]).reg 0x2 ∧
    (start [(0x1, 9)]).reg 0x1 ≠ (start [(0x1, 9)]).reg 0x2 ∧ (0x4#4 : Nibble) = 0x4#4 := by decide

/-- Keys 0 and 15. -/
theorem test_witness_KeySkipsSampleTheKey : ((start []).reg 0x2).toNat = (0 : Fin 16).val ∧
    ((start [(0x2, 15)]).reg 0x2).toNat = (15 : Fin 16).val := by decide

/-- A destination that is not `VF` (the flag clauses of the six flag writers), and a register that is no destination. -/
theorem test_witness_flag_clauses : (0x1#4 : Nibble) ≠ 0xF#4 ∧ (0x2#4 : Nibble) ≠ 0x1#4 ∧ (0x2#4 : Nibble) ≠ 0xF#4 := by decide

/-- The last `I` at which all three digits lie in memory, and addresses at both sides of the block. -/
theorem test_witness_BcdStoresThreeDigits :
    let s : State := { State.reset with index := 0x0FFD }
    s.mem.wf = true ∧ s.index.toNat ≤ 0xFFF ∧ s.index.toNat + 1 ≤ 0xFFF ∧ s.index.toNat + 2 ≤ 0xFFF ∧
      0xFFC < s.index.toNat ∧ s.index.toNat + 2 < 0x1000 := by decide

/-- `x` = 15 with `I` at 0x0FF0: the last register at 0x0FFF; addresses at both sides of the block. -/
theorem test_witness_StoreRegistersFillsTheBlock :
    let s : State := { State.reset with index := 0x0FF0 }
    s.mem.wf = true ∧ (0xF#4).toNat ≤ (0xF#4).toNat ∧ s.index.toNat + (0xF#4).toNat ≤ 0xFFF ∧
      0xFEF < s.index.toNat ∧ s.index.toNat + (0xF#4).toNat < 0x1000 := by decide

/-- `I` at 0x0FFF: `V[0]` from memory, `V[1]` from above it, `V[2]` not loaded. -/
theorem test_witness_LoadRegistersReadsTheBlock :
    let s : State := { State.reset with index := 0x0FFF }
    (s.index.toNat + (0x0#4).toNat ≤ 0xFFF) ∧ ((0x1#4).toNat ≤ (0x1#4).toNat ∧ 0xFFF < s.index.toNat + (0x1#4).toNat) ∧
      (0x1#4).toNat < (0x2#4).toNat := by decide

/-- A store of all sixteen registers at the top of memory, other registers in between, and a load. -/
theorem test_witness_StoreThenLoadRoundTrips : ∃ s t t' u : State, s.mem.wf = true ∧
    s.index.toNat + (0xF#4).toNat ≤ 0xFFF ∧ exec (.storeRegs 0xF#4) s = .next t ∧ t'.index = t.index ∧
    (∀ a, t'.byteAt a = t.byteAt a) ∧ exec (.loadRegs 0xF#4) t' = .next u ∧ (0xF#4).toNat ≤ (0xF#4).toNat :=
  ⟨{ start [(0x0, 0x11)] with index := 0x0FF0 }, _, State.setReg _ 0x0 0x77, _, by decide, by decide, rfl, rfl,
    fun _ => rfl, rfl, by decide⟩

/-- The highest key, 15, and the lowest alone, 0; and no key. -/
theorem test_witness_KeyWaitTakesTheHighestKeyOrStalls :
    ((pressed [] [3, 15]).key[(15 : Fin 16)] = true ∧ ∀ j : Fin 16, 15 < j → (pressed [] [3, 15]).key[j] = false) ∧
    ((pressed [] [0]).key[(0 : Fin 16)] = true ∧ ∀ j : Fin 16, 0 < j → (pressed [] [0]).key[j] = false) ∧
    ∀ j : Fin 16, State.reset.key[j] = false := by decide

/-- A running core: the hypothesis of SoundTimerIsSetAndBeepsOnce, TickDecrementsBothTimers,
DriverTransactionsTouchOnlyTheirFlag; and two keys. -/
theorem test_witness_running_core : State.reset.halted = false ∧ (1 : Fin 16) ≠ 0 := by decide

/-- An instruction that emits an event: the next state of a load from above memory. -/
theorem test_witness_NoInstructionBeeps :
    see (exec (.loadRegs 0x0) { State.reset with index := 0x1000 }) (fun t => t.events) = some [.diag 0x1000 .read] := by decide

/-- The largest ROM and the smallest. -/
theorem test_witness_LoadPlacesFontAndRom : defaultFont.length = 80 ∧ (List.replicate 3583 (0x12#8 : Byte)).length ≤ 3583 ∧
    ([] : List Byte).length ≤ 3583 := by
  rw [List.length_replicate]
  decide

/-- One byte too many. -/
theorem test_witness_OversizedRomIsRefused : State.reset.halted = false ∧ defaultFont.length = 80 ∧
    3583 < (List.replicate 3584 (0x12#8 : Byte)).length := by
  rw [List.length_replicate]
  decide

/-- The last address of memory and the first above. -/
theorem test_witness_checked_accesses : State.reset.mem.wf = true ∧ 0xFFF ≤ 0xFFF ∧ 0xFFF < 0x1000 := by decide

/-- A word of a row, and one of none. -/
theorem test_witness_DecodeFollowsTheOpcodeMap : decode 0x812E#16 = .instr (.shl 0x1) ∧
    (rowOf (.shl 0x5)).selects 0x812E#16 = true ∧ (rowOf (.shl 0x1)).selects 0x812E#16 = true := by decide

/-- No row selects the word 0x0000. -/
theorem test_witness_no_row : ∀ i : Instr, (rowOf i).selects 0x0000#16 = false := by
  intro i
  cases i <;> simp only [rowOf] <;> decide

/-- An instruction at 0x0200 and one at 0x0FFF, whose second byte is 0 with a diagnostic; a `Step` is next. -/
theorem test_witness_StepRunsTheDecodedInstruction :
    let s := State.reset.withFetchWord 16 0x6A2B
    let t := { State.reset with pc := 0x0FFF }.writeBytes 0xFFF [0x60]
    (s.choose.1 = .step ∧ s.halted = false ∧ decode s.opcode = .instr (.ldImm 0xA 0x2B) ∧ s.pc.toNat < 0xFFF) ∧
    (t.choose.1 = .step ∧ t.halted = false ∧ decode t.opcode = .instr (.ldImm 0x0 0x00) ∧ t.pc.toNat = 0xFFF) := by decide

/-- The four forms of the driver's plan. -/
theorem test_witness_StepServesTheAgendaInOrder : State.reset.agenda = [] ∧ State.reset.onward = .cycle [] ∧
    ({ State.reset with agenda := [.tick, .reset] } : State).agenda = .tick :: [.reset] ∧
    ({ State.reset with onward := .cycle [.tick, .step] } : State).onward = .cycle (.tick :: [.step]) ∧
    ({ State.reset with onward := .free 0 } : State).onward = .free 0 := by decide

/-- The last of an agenda, `Step`s after it, a block for ever (its first, its last, its first again), a free sequence; and a
next state. -/
theorem test_witness_ScheduleRunsAsPlanned :
    (1 < ({ State.reset with agenda := [.tick, .step] } : State).agenda.length ∧ State.reset.onward = .cycle []) ∧
    (({ State.reset with onward := .cycle [.tick, .step] } : State).onward = .cycle (.tick :: [.step]) ∧
      ({ State.reset with onward := .free 7 } : State).onward = .free 7) ∧
    see (step { State.reset with onward := .cycle [.tick] }) (fun t => t.planned 0) = some .tick := by decide

/-- R185: `Tick`s without end: after one the next is a `Tick` again, and the plan is as before. -/
theorem test_endless_ticks : see (step { State.reset with onward := .cycle [.tick], delay := 3 })
    (fun t => (t.delay, t.agenda, t.onward, t.pc)) = some (2, [], .cycle [.tick], 0x0200) := by decide

/-- Two words of one row in each kind of group: 5 (no sub-selector), 8 (low nibble), 0, E, F (low byte). -/
theorem test_witness_FieldsAreTheBitsOfTheWord :
    (decode 0x5120#16 = .instr (.seReg 1 2) ∧ decode 0x534F#16 = .instr (.seReg 3 4) ∧
      fieldTop 0x5120#16 = fieldTop 0x534F#16) ∧
    (decode 0x8AB4#16 = .instr (.addReg 0xA 0xB) ∧ decode 0x8014#16 = .instr (.addReg 0 1) ∧
      fieldTop 0x8AB4#16 = 0x8#4 ∧ fieldN 0x8AB4#16 = fieldN 0x8014#16) ∧
    (decode 0x00E0#16 = .instr .cls ∧ fieldTop 0x00E0#16 ∈ [0x0#4, 0xE#4, 0xF#4]) ∧
    (decode 0xE29E#16 = .instr (.skp 2) ∧ decode 0xE39E#16 = .instr (.skp 3) ∧ fieldNN 0xE29E#16 = fieldNN 0xE39E#16) ∧
    (decode 0xF207#16 = .instr (.ldFromDelay 2) ∧ decode 0xFF07#16 = .instr (.ldFromDelay 0xF) ∧
      fieldNN 0xF207#16 = fieldNN 0xFF07#16) := by decide

/-- The delay timer at zero, at one and at its greatest value on a running core; a `Step` of another instruction; an instruction
other than `Fx07`. -/
theorem test_witness_DelayTimerCountsDownToZero :
    (State.reset.halted = false ∧ State.reset.delay = 0#8 ∧ ({ State.reset with delay := 1 } : State).delay ≠ 0#8 ∧
      ({ State.reset with delay := 255 } : State).delay ≠ 0#8) ∧
    (see (transact .step (State.reset.withFetchWord 16 0x6A2B)) (fun t => t.delay) = some 0 ∧
      decode (State.reset.withFetchWord 16 0x6A2B).opcode = .instr (.ldImm 0xA 0x2B)) ∧
    see (exec (.ldDelay 1) State.reset) (fun t => t.delay) = some 0 := by decide

/-- An unknown word in memory. -/
theorem test_witness_UnknownOpcodeFillsTheFaultLatch :
    (State.reset.withFetchWord 16 0x8128).halted = false ∧
    decode (State.reset.withFetchWord 16 0x8128).opcode = .unknownOpcode 0x8128#16 := by decide

/-- The first address above memory. -/
theorem test_witness_NothingExecutesAbove0FFF : State.reset.halted = false ∧
    0x0FFF < ({ State.reset with pc := 0x1000 } : State).pc.toNat := by decide

/-- The full and the empty stack. -/
theorem test_witness_StackOverrunsAreFaults : ({ State.reset with sp := 16 } : State).sp.val = 16 ∧ State.reset.sp.val = 0 := by
  decide

/-- Key number 16. -/
theorem test_witness_KeyNumberAbove15IsAFault : 15 < ((start [(0x1, 16)]).reg 0x1).toNat ∧
    Instr.sknp 0x1 ∈ [Instr.skp 0x1, .sknp 0x1] := by decide

/-- A running core that an instruction halts, for each of the three faults. -/
theorem test_witness_FaultsArePrecise : (start []).halted = false ∧
    see (exec .ret (start [])) (fun t => t.halted) = some true ∧
    see (exec (.call 0x300) { (start []) with sp := 16 }) (fun t => t.halted) = some true ∧
    see (exec (.skp 0x1) (start [(0x1, 16)])) (fun t => t.halted) = some true := by decide

/-- A halted core and a transaction that is not `Reset`. -/
theorem test_witness_HaltedCoreIsFrozen : ({ State.reset with halted := true } : State).halted = true ∧
    Transaction.tick ≠ .reset := by decide

/-- A halted core on which `Reset` is next, and one on which it is not: both steps are next states. -/
theorem test_witness_OnlyResetLeavesTheHaltedState :
    see (step { State.reset with halted := true, agenda := [.reset] }) (fun t => t.halted) = some false ∧
    see (step { State.reset with halted := true, agenda := [.tick] }) (fun t => (t.halted, t.agenda)) = some (true, []) := by
  decide

/-- Plans whose next transaction is no `Load`. -/
theorem test_witness_OnlyLoadCanStopARun : (∀ font rom, State.reset.choose.1 ≠ .load font rom) ∧
    ∀ font rom, ({ State.reset with agenda := [.tick] } : State).choose.1 ≠ .load font rom := by
  constructor <;> intro font rom h <;> cases h

/-- A next state of an instruction that writes none of the fields but `pc`, and is none of the writers. -/
theorem test_witness_EachFieldHasOnlyItsWriters : (∃ t, exec (.jp 0x300) State.reset = .next t) ∧
    (∀ nnn, Instr.jp 0x300 ≠ .ldIndex nnn) ∧ (∀ nnn, Instr.jp 0x300 ≠ .call nnn) ∧ Instr.jp 0x300 ≠ .ret ∧
    ∀ x nn, Instr.jp 0x300 ≠ .rnd x nn := by
  refine ⟨⟨_, rfl⟩, ?_, ?_, ?_, ?_⟩ <;> intros <;> intro h <;> cases h

/-- Registers that change: `VF` beside the destination, a destination, and a register of a block. -/
theorem test_witness_RegistersChangeOnlyAsDestinations :
    see (exec (.shr 0x1) (start [(0x1, 1)])) (fun t => decide (t.reg 0xF ≠ (start [(0x1, 1)]).reg 0xF)) = some true ∧
    see (exec (.ldImm 0x2 7) (start [])) (fun t => decide (t.reg 0x2 ≠ (start []).reg 0x2)) = some true ∧
    see (exec (.loadRegs 0x3) (sprite [(0x3, 9)] [])) (fun t => decide (t.reg 0x3 ≠ (sprite [(0x3, 9)] []).reg 0x3))
      = some true := by decide

/-- A running core and a next state. -/
theorem test_witness_PcMovesAsListed : State.reset.halted = false ∧ ∃ t, exec (.ldKey 0x1) State.reset = .next t :=
  ⟨rfl, _, rfl⟩

/-- Two states that differ in `sound` and `dirty`, and a next state of the first. -/
theorem test_witness_SoundAndDirtyAreNeverRead : ∃ t, exec (.ldDelay 0x1) State.reset = .next t ∧
    ({ State.reset with sound := 5, dirty := true } : State) ≠ State.reset :=
  ⟨_, rfl, by intro h; exact absurd (congrArg State.dirty h) (by decide)⟩

/-- F3: 120C at 0x020C; and a jump to itself at the last address an opcode can stand at, 0x0FFE. -/
theorem test_witness_FinishedStateIsAFixedPoint :
    ({ State.reset with pc := 0x020C }.writeBytes 0x20C [0x12, 0x0C]).Finished ∧
    ({ State.reset with pc := 0x0FFE }.writeBytes 0xFFE [0x1F, 0xFE]).Finished := by
  unfold State.Finished
  decide

/-- The invariant at reset. -/
theorem test_witness_reset_inv : State.reset.Inv :=
  ⟨rfl, rfl, (fun _ h => nomatch h), by decide, by decide⟩

/-- A step from a state that meets the invariant. -/
theorem test_witness_EveryStepKeepsTheInvariant : State.reset.Inv ∧ ∃ t, step State.reset = .next t :=
  ⟨test_witness_reset_inv, _, rfl⟩

end Sys2Proof.Tests
end

section
/-! The delay timer (R16): overwriting it commutes with every operation that does not read it, so no instruction but `Fx07`
can tell two delays apart. -/

namespace Sys2Proof.Machine

/-! ## Overwriting the delay timer before or after an operation -/

theorem State.sameExcept_setDelay (s : State) (d : Byte) : s.SameExcept (s.setDelay d) [.delay] := by
  intro f hf
  cases f
  case delay => exact absurd (List.mem_singleton_self _) hf
  case v => exact s.setDelay_reg d
  case mem => exact s.setDelay_byteAt d
  case disp => exact s.setDelay_pixelAt d
  all_goals rfl

theorem State.pop_setDelay (s : State) (d : Byte) :
    (s.setDelay d).pop = s.pop.map (fun r => (r.1, r.2.setDelay d)) := by
  by_cases h : s.sp.val = 0
  · rw [s.pop_empty h, (s.setDelay d).pop_empty h]
    rfl
  · have hpos : 0 < s.sp.val := by omega
    rw [s.pop_of_pos hpos, (s.setDelay d).pop_of_pos hpos]
    rfl

theorem State.push_setDelay (s : State) (d : Byte) (w : Word) :
    (s.setDelay d).push w = (s.push w).map (·.setDelay d) := by
  by_cases h : s.sp.val < 16
  · rw [s.push_of_lt w h, (s.setDelay d).push_of_lt w h]
    rfl
  · have hfull : s.sp.val = 16 := by omega
    rw [s.push_full w hfull, (s.setDelay d).push_full w hfull]
    rfl

theorem State.keyOperand_setDelay (s : State) (d : Byte) (x : Nibble) :
    (s.setDelay d).keyOperand x = s.keyOperand x := rfl

theorem State.lastPressed_setDelay (s : State) (d : Byte) : (s.setDelay d).lastPressed = s.lastPressed := rfl

theorem State.memWrite_setDelay (s : State) (d : Byte) (a : Nat) (b : Byte) :
    (s.setDelay d).memWrite a b = (s.memWrite a b).setDelay d := by
  rw [State.memWrite_eq, State.memWrite_eq]
  rfl

theorem State.writeBytes_setDelay (s : State) (d : Byte) (a : Nat) (bs : List Byte) :
    (s.setDelay d).writeBytes a bs = (s.writeBytes a bs).setDelay d := by
  induction bs generalizing s a with
  | nil => rfl
  | cons b bs ih => rw [State.writeBytes, State.writeBytes, State.memWrite_setDelay, ih]

theorem State.setRegsFrom_setDelay (s : State) (d : Byte) (k : Nat) (bs : List Byte) :
    (s.setDelay d).setRegsFrom k bs = (s.setRegsFrom k bs).setDelay d := by
  induction bs generalizing s k with
  | nil => rfl
  | cons b bs ih => exact ih (s.setReg (BitVec.ofNat 4 k) b) (k + 1)

theorem State.readBytes_setDelay (s : State) (d : Byte) (a count : Nat) :
    (s.setDelay d).readBytes a count = ((s.readBytes a count).1, (s.readBytes a count).2.setDelay d) := by
  apply Prod.ext
  · rw [State.readBytes_fst, State.readBytes_fst]
    rfl
  · rw [State.readBytes_snd, State.readBytes_snd]
    rfl

/-! ## Reading and writing the delay timer -/

/-- No instruction but `Fx07` reads the delay timer: run from another delay, every other one answers the same state but for
the delay, which `Fx15` overwrites and the rest carry along. -/
theorem exec_setDelay {i : Instr} (hi : ∀ x, i ≠ .ldFromDelay x) {s t : State} (h : exec i s = .next t) (d : Byte) :
    ∃ e, exec i (s.setDelay d) = .next (t.setDelay e) := by
  cases i
  case ldFromDelay x => exact absurd rfl (hi x)
  case ldDelay x => cases h; exact ⟨s.reg x, rfl⟩
  all_goals refine ⟨d, ?_⟩
  case ret =>
    simp only [exec, execRet, State.pop_setDelay] at h ⊢
    cases hp : s.pop <;> rw [hp] at h <;> cases h <;> rfl
  case call nnn =>
    simp only [exec, execCall, State.setDelay_pc, State.push_setDelay] at h ⊢
    cases hp : s.push s.pc <;> rw [hp] at h <;> cases h <;> rfl
  case skp x | sknp x =>
    simp only [exec, execSkp, execSknp, State.keyOperand_setDelay] at h ⊢
    cases hk : s.keyOperand x <;> rw [hk] at h <;> cases h <;> rfl
  case ldKey x =>
    simp only [exec, execLdKey, State.lastPressed_setDelay] at h ⊢
    cases hk : s.lastPressed <;> rw [hk] at h <;> cases h <;> rfl
  all_goals cases h
  case drw x y n =>
    simp only [exec, execDrw, State.dataBase, State.setDelay_index, State.readBytes_setDelay]
    rfl
  case ldBcd x | storeRegs x =>
    simp only [exec, execLdBcd, execStoreRegs, State.dataBase, State.setDelay_index, State.writeBytes_setDelay]
    rfl
  case loadRegs x =>
    simp only [exec, execLoadRegs, State.dataBase, State.setDelay_index, State.readBytes_setDelay,
      State.setRegsFrom_setDelay]
    rfl
  all_goals rfl

/-- No instruction but `Fx15` writes the delay timer. -/
theorem exec_delay {i : Instr} {s t : State} (h : exec i s = .next t) (hi : ∀ x, i ≠ .ldDelay x) : t.delay = s.delay := by
  revert hi
  apply exec_elim (P := fun i s t => (∀ x, i ≠ .ldDelay x) → t.delay = s.delay) h
  case on_ldDelay => exact fun x hi => absurd rfl (hi x)
  all_goals intros
  all_goals simp

/-- A `Step` keeps the delay timer unless the word at `pc` is an `Fx15`: not executing, and entering a fault, keep it too. -/
theorem coreStep_delay {s t : State} (h : coreStep s = .next t) (hi : ∀ x, decode s.opcode ≠ .instr (.ldDelay x)) :
    t.delay = s.delay := by
  rcases coreStep_cases s with ⟨_, e⟩ | ⟨_, i, hd, e⟩ | ⟨_, op, _, e⟩ <;> rw [e] at h
  · cases h; rfl
  · have hne : ∀ x, i ≠ .ldDelay x := fun x hx => hi x (hd.trans (congrArg _ hx))
    rw [exec_delay h hne, State.afterFetch_delay]
  · cases h; rfl

/-- `Tick` on a running core counts the delay timer down by one where it is not zero (R162). -/
theorem State.tick_delay_toNat {s : State} (h : s.halted = false) (hd : s.delay ≠ 0#8) :
    s.tick.delay.toNat + 1 = s.delay.toNat := by
  rw [State.tick_delay h, if_neg hd]
  bv_omega

/-- Settles O60: `exec_setDelay` says which instruction reads the delay timer, `coreStep_delay` which one writes it, and the
rest are the effects of `Fx15`, `Fx07` and `Tick`. -/
theorem delayTimerCountsDownToZero : Obligations.DelayTimerCountsDownToZero := by
  refine ⟨fun x s => ⟨_, rfl, rfl⟩, fun x s => ⟨_, rfl, ?fx07⟩, fun s hs => ⟨s.tick, rfl, ?down, ?zero, ?pc, ?runs⟩,
    fun s t => coreStep_delay, fun i s t d hi h => ?unread⟩
  case fx07 => simp
  case down => exact State.tick_delay_toNat hs
  case zero => exact fun hd => by rw [State.tick_delay hs, if_pos hd]
  case pc => rw [State.tick_eq]
  case runs => rw [State.tick_eq]; exact hs
  case unread =>
    obtain ⟨e, he⟩ := exec_setDelay hi h d
    exact ⟨t.setDelay e, he, t.sameExcept_setDelay e⟩

end Sys2Proof.Machine
end

section
/-! The fields of a word (R61): their values, their place in the two bytes of an opcode, and how the decision tree uses them: a
decoded instruction holds the fields its pattern names, and the row it belongs to is a function of the top nibble and the
sub-selector of its group. -/

namespace Sys2Proof.Machine

/-! ## The fields as numbers -/

@[simp] theorem fieldTop_toNat (op : Word) : (fieldTop op).toNat = op.toNat / 4096 := by
  have := op.isLt
  rw [fieldTop, BitVec.extractLsb'_toNat, Nat.shiftRight_eq_div_pow]
  omega

@[simp] theorem fieldX_toNat (op : Word) : (fieldX op).toNat = op.toNat / 256 % 16 := by
  rw [fieldX, BitVec.extractLsb'_toNat, Nat.shiftRight_eq_div_pow]

@[simp] theorem fieldY_toNat (op : Word) : (fieldY op).toNat = op.toNat / 16 % 16 := by
  rw [fieldY, BitVec.extractLsb'_toNat, Nat.shiftRight_eq_div_pow]

@[simp] theorem fieldN_toNat (op : Word) : (fieldN op).toNat = op.toNat % 16 := by
  rw [fieldN, BitVec.extractLsb'_toNat, Nat.shiftRight_zero]

@[simp] theorem fieldNN_toNat (op : Word) : (fieldNN op).toNat = op.toNat % 256 := by
  rw [fieldNN, BitVec.extractLsb'_toNat, Nat.shiftRight_zero]

@[simp] theorem fieldNNN_toNat (op : Word) : (fieldNNN op).toNat = op.toNat % 4096 := by
  rw [fieldNNN, BitVec.extractLsb'_toNat, Nat.shiftRight_zero]

@[simp] theorem opcodeOf_toNat (hi lo : Byte) : (opcodeOf hi lo).toNat = hi.toNat * 256 + lo.toNat := by
  have hcat : opcodeOf hi lo = hi ++ lo := by
    rw [BitVec.append_def, BitVec.shiftLeftZeroExtend_eq]
    rfl
  rw [hcat, BitVec.toNat_append, ← Nat.shiftLeft_add_eq_or_of_lt lo.isLt, Nat.shiftLeft_eq]

/-! ## What the decision tree does with the fields -/

/-- The row that a top nibble selects, with the low nibble as the sub-selector of group 8 and the low byte as that of groups 0, E
and F. -/
def selectedRow (top n : Nibble) (nn : Byte) : Row :=
  match top with
  | 0x0#4 => ⟨wordXNN 0x0#4 0x0#4 nn, 0xFFFF#16⟩
  | 0x8#4 => ⟨wordXYN 0x8#4 0x0#4 0x0#4 n, 0xF00F#16⟩
  | 0xE#4 => ⟨wordXNN 0xE#4 0x0#4 nn, 0xF0FF#16⟩
  | 0xF#4 => ⟨wordXNN 0xF#4 0x0#4 nn, 0xF0FF#16⟩
  | t => ⟨wordXYN t 0x0#4 0x0#4 0x0#4, 0xF000#16⟩

/-- Outside group 8 the low nibble plays no part, and outside groups 0, E and F the low byte plays none. -/
theorem selectedRow_congr {top n n' : Nibble} {nn nn' : Byte} (hn : top = 0x8#4 → n = n')
    (hnn : top ∈ [0x0#4, 0xE#4, 0xF#4] → nn = nn') : selectedRow top n nn = selectedRow top n' nn' := by
  unfold selectedRow
  split
  case h_2 => rw [hn rfl]
  case h_5 => rfl
  all_goals rw [hnn (by decide)]

theorem decodeGroup0_instr {op : Word} {i : Instr} (h : decodeGroup0 op = .instr i) :
    operandsFrom op i ∧ rowOf i = ⟨wordXNN 0x0#4 0x0#4 (fieldNN op), 0xFFFF#16⟩ := by
  unfold decodeGroup0 at h
  split_ifs at h with hcls hret
  · cases h; exact ⟨trivial, by rw [hcls]; rfl⟩
  · cases h; exact ⟨trivial, by rw [hret]; rfl⟩

theorem decodeGroup8_instr {op : Word} {i : Instr} (h : decodeGroup8 op = .instr i) :
    operandsFrom op i ∧ rowOf i = ⟨wordXYN 0x8#4 0x0#4 0x0#4 (fieldN op), 0xF00F#16⟩ := by
  unfold decodeGroup8 at h
  split at h <;> cases h
  all_goals rename_i hn; rw [hn]
  case h_7 | h_9 => exact ⟨rfl, rfl⟩
  all_goals exact ⟨⟨rfl, rfl⟩, rfl⟩

theorem decodeGroupE_instr {op : Word} {i : Instr} (h : decodeGroupE op = .instr i) :
    operandsFrom op i ∧ rowOf i = ⟨wordXNN 0xE#4 0x0#4 (fieldNN op), 0xF0FF#16⟩ := by
  unfold decodeGroupE at h
  split at h <;> cases h
  all_goals rename_i hnn; rw [hnn]; exact ⟨rfl, rfl⟩

theorem decodeGroupF_instr {op : Word} {i : Instr} (h : decodeGroupF op = .instr i) :
    operandsFrom op i ∧ rowOf i = ⟨wordXNN 0xF#4 0x0#4 (fieldNN op), 0xF0FF#16⟩ := by
  unfold decodeGroupF at h
  split at h <;> cases h
  all_goals rename_i hnn; rw [hnn]; exact ⟨rfl, rfl⟩

/-- What decoding to an instruction says of it: its operands are the fields its pattern names, and its row is the one that the top
nibble and the sub-selector select. -/
theorem decode_instr {op : Word} {i : Instr} (h : decode op = .instr i) :
    operandsFrom op i ∧ rowOf i = selectedRow (fieldTop op) (fieldN op) (fieldNN op) := by
  unfold decode at h
  split at h
  case h_1 top => rw [top]; exact decodeGroup0_instr h
  case h_9 top => rw [top]; exact decodeGroup8_instr h
  case h_15 top => rw [top]; exact decodeGroupE_instr h
  case h_16 =>
    have top : fieldTop op = 0xF#4 := by simp only [imp_false] at *; bv_omega
    rw [top]
    exact decodeGroupF_instr h
  all_goals rename_i top; cases h; rw [top]
  case h_2 | h_3 | h_11 | h_12 => exact ⟨rfl, rfl⟩
  case h_14 => exact ⟨⟨rfl, rfl, rfl⟩, rfl⟩
  all_goals exact ⟨⟨rfl, rfl⟩, rfl⟩

/-- Settles O59: the fields are quotients and remainders of the word's number, and `decode_instr` says which of them the decision
tree uses as operands and which as selectors. -/
theorem fieldsAreTheBitsOfTheWord : Obligations.FieldsAreTheBitsOfTheWord := by
  refine ⟨fun op => ?numbers, fun hi lo => ?bytes, fun op i h => (decode_instr h).1,
    fun op op' i i' h h' htop hn hnn => ?row⟩
  case numbers =>
    simp only [fieldTop_toNat, fieldX_toNat, fieldY_toNat, fieldN_toNat, fieldNN_toNat, fieldNNN_toNat, true_and]
    omega
  case bytes =>
    have hlo := lo.isLt
    have hhi := hi.isLt
    simp only [← BitVec.toNat_inj, fieldTop_toNat, fieldX_toNat, fieldY_toNat, fieldN_toNat, fieldNN_toNat, opcodeOf_toNat]
    omega
  case row =>
    rw [(decode_instr h).2, (decode_instr h').2, ← htop]
    exact selectedRow_congr hn hnn

end Sys2Proof.Machine
end

section
/-! The decoder against the opcode map (R63 to R66): a word decodes to an instruction exactly when that instruction's row
selects it and its operands are the fields of the word. What every encoding clause says of one pattern is a use of that. -/

namespace Sys2Proof.Machine

/-! ## A word under the three masks of the map -/

theorem and_mask_top (op : Word) : op &&& 0xF000#16 = wordXYN (fieldTop op) 0x0#4 0x0#4 0x0#4 := by
  apply BitVec.eq_of_getLsbD_eq
  intro k hk
  interval_cases k <;> simp [wordXYN, fieldTop]

theorem and_mask_top_n (op : Word) : op &&& 0xF00F#16 = wordXYN (fieldTop op) 0x0#4 0x0#4 (fieldN op) := by
  apply BitVec.eq_of_getLsbD_eq
  intro k hk
  interval_cases k <;> simp [wordXYN, fieldTop, fieldN]

theorem and_mask_top_nn (op : Word) : op &&& 0xF0FF#16 = wordXNN (fieldTop op) 0x0#4 (fieldNN op) := by
  apply BitVec.eq_of_getLsbD_eq
  intro k hk
  interval_cases k <;> simp [wordXNN, fieldTop, fieldNN]

/-! ## From the decoder to the map -/

/-- The two words of group 0 have no bit in `x` (R68). -/
theorem fieldX_of_decodeGroup0 {op : Word} {i : Instr} (h : decodeGroup0 op = .instr i) : fieldX op = 0x0#4 := by
  unfold decodeGroup0 at h
  split_ifs at h with hcls hret
  · rw [hcls]; rfl
  · rw [hret]; rfl

/-- The row that a word's own fields select does select the word; in group 0, which is matched whole, if `x` is 0. -/
theorem selectedRow_selects {op : Word} (h : fieldTop op = 0x0#4 → fieldX op = 0x0#4) :
    (selectedRow (fieldTop op) (fieldN op) (fieldNN op)).selects op = true := by
  rw [Row.selects, beq_iff_eq]
  unfold selectedRow
  split
  case h_1 top =>
    calc op &&& 0xFFFF#16 = op := BitVec.and_allOnes
      _ = wordXNN (fieldTop op) (fieldX op) (fieldNN op) := (wordXNN_fields op).symm
      _ = wordXNN 0x0#4 0x0#4 (fieldNN op) := by rw [top, h top]
  case h_2 top => rw [← top]; exact and_mask_top_n op
  case h_3 top | h_4 top => rw [← top]; exact and_mask_top_nn op
  case h_5 => exact and_mask_top op

/-- The row of a decoded instruction selects the word (R65). -/
theorem selects_of_decode {op : Word} {i : Instr} (h : decode op = .instr i) : (rowOf i).selects op = true := by
  rw [(decode_instr h).2]
  refine selectedRow_selects fun top => fieldX_of_decodeGroup0 (i := i) ?_
  rwa [decode, top] at h

/-! ## From the map to the decoder -/

/-- Every row's mask covers the top nibble. -/
theorem fieldTop_of_selects {op : Word} {i : Instr} (h : (rowOf i).selects op = true) :
    fieldTop op = fieldTop (rowOf i).value := by
  rw [Row.selects, beq_iff_eq] at h
  refine field_of_masked h 12 4 ?_
  cases i <;> simp [rowOf]

/-- A word that a row selects decodes to an instruction of that row: the one whose operands are the word's fields. The
selector of each group, the low nibble or the low byte, is fixed by the row's mask. -/
theorem decode_of_selects {op : Word} {i : Instr} (h : (rowOf i).selects op = true) :
    ∃ j, decode op = .instr j ∧ rowOf j = rowOf i ∧ (operandsFrom op i → i = j) := by
  have top := fieldTop_of_selects h
  rw [Row.selects, beq_iff_eq] at h
  cases i <;> simp only [rowOf, fieldTop] at h top
  case cls | ret =>
    rw [show op &&& 0xFFFF#16 = op from BitVec.and_allOnes] at h
    subst h
    exact ⟨_, rfl, rfl, fun _ => rfl⟩
  case ldReg | orReg | andReg | xorReg | addReg | subReg | subnReg | shr | shl =>
    have n := field_of_masked h 0 4 (by decide)
    simp +contextual [decode, decodeGroup8, fieldTop, fieldN, top, n, rowOf, operandsFrom]
  case skp | sknp =>
    have nn := field_of_masked h 0 8 (by decide)
    simp +contextual [decode, decodeGroupE, fieldTop, fieldNN, top, nn, rowOf, operandsFrom]
  case ldFromDelay | ldKey | ldDelay | ldSound | addIndex | ldGlyph | ldBcd | storeRegs | loadRegs =>
    have nn := field_of_masked h 0 8 (by decide)
    simp +contextual [decode, decodeGroupF, fieldTop, fieldNN, top, nn, rowOf, operandsFrom]
  all_goals simp +contextual [decode, fieldTop, top, rowOf, operandsFrom]

/-- The form in which an encoding clause uses it: mask, match and operands determine what a word decodes to. -/
theorem decode_eq_of_row {op : Word} (i : Instr) (hrow : op &&& (rowOf i).mask = (rowOf i).value)
    (hops : operandsFrom op i) : decode op = .instr i := by
  obtain ⟨j, hj, -, hij⟩ := decode_of_selects (i := i) (beq_iff_eq.2 hrow)
  rw [hj, hij hops]

/-- An instruction of a row whose mask is the whole word is decoded from one word alone (R68). -/
theorem decode_iff_of_whole_word (i : Instr) (hmask : (rowOf i).mask = 0xFFFF#16) (hops : ∀ op, operandsFrom op i)
    (op : Word) : decode op = .instr i ↔ op = (rowOf i).value := by
  have hand : op &&& (rowOf i).mask = op := by rw [hmask]; exact BitVec.and_allOnes
  constructor
  · intro h
    rw [← hand]
    exact beq_iff_eq.1 (selects_of_decode h)
  · exact fun h => decode_eq_of_row i (hand.trans h) (hops op)

/-- No word belongs to two rows (R65). -/
theorem rowOf_eq_of_selects {op : Word} {i j : Instr} (hi : (rowOf i).selects op = true)
    (hj : (rowOf j).selects op = true) : rowOf i = rowOf j := by
  obtain ⟨i', di, ri, -⟩ := decode_of_selects hi
  obtain ⟨j', dj, rj, -⟩ := decode_of_selects hj
  rw [di] at dj
  cases dj
  rw [← ri, rj]

/-- A word that no row selects is unknown, under its own value (R66). -/
theorem decode_of_no_row {op : Word} (h : ∀ i, (rowOf i).selects op = false) : decode op = .unknownOpcode op := by
  cases hd : decode op with
  | instr i => exact absurd (selects_of_decode hd) (by simp [h i])
  | unknownOpcode w => rw [decode_unknown_self hd]

/-- Settles O37: `selects_of_decode` and `decode_of_selects` are its two directions. -/
theorem decodeFollowsTheOpcodeMap : Obligations.DecodeFollowsTheOpcodeMap := by
  refine ⟨fun op i => selects_of_decode, fun op i h => ?_, fun op => decode_of_no_row, fun op i j => rowOf_eq_of_selects⟩
  obtain ⟨j, hj, hrow, -⟩ := decode_of_selects h
  exact ⟨j, hj, hrow⟩

/-! ## Encoding -/

/-- The canonical word of an instruction belongs to its row (R65). -/
theorem rowOf_selects_encode : ∀ i : Instr, (rowOf i).selects (encode i) = true
  | .cls => Laws.InstrRow.cls
  | .ret => Laws.InstrRow.ret
  | .jp nnn => Laws.InstrRow.jp nnn
  | .call nnn => Laws.InstrRow.call nnn
  | .seImm x nn => Laws.InstrRow.seImm x nn
  | .sneImm x nn => Laws.InstrRow.sneImm x nn
  | .seReg x y => Laws.InstrRow.seReg x y
  | .sneReg x y => Laws.InstrRow.sneReg x y
  | .ldImm x nn => Laws.InstrRow.ldImm x nn
  | .addImm x nn => Laws.InstrRow.addImm x nn
  | .ldReg x y => Laws.InstrRow.ldReg x y
  | .orReg x y => Laws.InstrRow.orReg x y
  | .andReg x y => Laws.InstrRow.andReg x y
  | .xorReg x y => Laws.InstrRow.xorReg x y
  | .addReg x y => Laws.InstrRow.addReg x y
  | .subReg x y => Laws.InstrRow.subReg x y
  | .shr x => Laws.InstrRow.shr x
  | .subnReg x y => Laws.InstrRow.subnReg x y
  | .shl x => Laws.InstrRow.shl x
  | .ldIndex nnn => Laws.InstrRow.ldIndex nnn
  | .jpV0 nnn => Laws.InstrRow.jpV0 nnn
  | .rnd x nn => Laws.InstrRow.rnd x nn
  | .drw x y n => Laws.InstrRow.drw x y n
  | .skp x => Laws.InstrRow.skp x
  | .sknp x => Laws.InstrRow.sknp x
  | .ldFromDelay x => Laws.InstrRow.ldFromDelay x
  | .ldKey x => Laws.InstrRow.ldKey x
  | .ldDelay x => Laws.InstrRow.ldDelay x
  | .ldSound x => Laws.InstrRow.ldSound x
  | .addIndex x => Laws.InstrRow.addIndex x
  | .ldGlyph x => Laws.InstrRow.ldGlyph x
  | .ldBcd x => Laws.InstrRow.ldBcd x
  | .storeRegs x => Laws.InstrRow.storeRegs x
  | .loadRegs x => Laws.InstrRow.loadRegs x

/-- The fields of an instruction's canonical word are its operands (R64). -/
theorem operandsFrom_encode (i : Instr) : operandsFrom (encode i) i := by
  cases i <;> simp [operandsFrom, encode]

theorem decode_encode (i : Instr) : decode (encode i) = .instr i :=
  decode_eq_of_row i (beq_iff_eq.1 (rowOf_selects_encode i)) (operandsFrom_encode i)

/-- The decoder on the two bytes of an opcode and whatever follows them (R47). -/
theorem decodeBytes_opcodeBytes (op : Word) (rest : List Byte) :
    decodeBytes (opcodeBytes op ++ rest) = some (decode op, rest) := by
  change some (decode (opcodeOf (op.extractLsb' 8 8) (op.extractLsb' 0 8)), rest) = _
  rw [opcodeOf_opcodeBytes]

/-- A table word of 16 bits is decoded as the word it is the number of. -/
theorem decodeTableWord_toNat {op : Word} {i : Instr} (h : decode op = .instr i) :
    decodeTableWord 16 op.toNat = some i := by
  have hbytes := decodeBytes_opcodeBytes op []
  rw [List.append_nil, h] at hbytes
  rw [decodeTableWord, Nat.mod_eq_of_lt op.isLt, BitVec.ofNat_toNat, BitVec.setWidth_eq, hbytes]

/-- Settles O36: the canonical word belongs to its instruction's row and holds its operands, so it decodes back to it; bytes
and table words are read as the word they stand for. -/
theorem decodeOfEncodeIsTheInstruction : Obligations.DecodeOfEncodeIsTheInstruction := by
  refine fun i => ⟨decode_encode i, fun rest => ?_, decodeTableWord_toNat (decode_encode i)⟩
  rw [decodeBytes_opcodeBytes, decode_encode]

/-! ## The unknown words -/

theorem decodeGroup0_unknown_iff (op : Word) :
    decodeGroup0 op = .unknownOpcode op ↔ op ≠ 0x00E0#16 ∧ op ≠ 0x00EE#16 := by
  unfold decodeGroup0
  split_ifs <;> simp_all

theorem decodeGroup8_unknown_iff (op : Word) :
    decodeGroup8 op = .unknownOpcode op ↔ fieldN op ∈ [0x8#4, 0x9#4, 0xA#4, 0xB#4, 0xC#4, 0xD#4, 0xF#4] := by
  unfold decodeGroup8
  split
  case h_10 =>
    simp only [imp_false] at *
    simp only [true_iff, List.mem_cons, List.not_mem_nil, or_false]
    bv_omega
  all_goals simp_all

theorem decodeGroupE_unknown_iff (op : Word) :
    decodeGroupE op = .unknownOpcode op ↔ fieldNN op ∉ [0x9E#8, 0xA1#8] := by
  unfold decodeGroupE
  split <;> simp_all

theorem decodeGroupF_unknown_iff (op : Word) :
    decodeGroupF op = .unknownOpcode op ↔
      fieldNN op ∉ [0x07#8, 0x0A#8, 0x15#8, 0x18#8, 0x1E#8, 0x29#8, 0x33#8, 0x55#8, 0x65#8] := by
  unfold decodeGroupF
  split <;> simp_all

/-- Only the groups 0, 8, E and F hold unknown words (R66). -/
theorem decode_unknown_iff (op : Word) :
    decode op = .unknownOpcode op ↔
      (fieldTop op = 0x0#4 ∧ decodeGroup0 op = .unknownOpcode op) ∨
      (fieldTop op = 0x8#4 ∧ decodeGroup8 op = .unknownOpcode op) ∨
      (fieldTop op = 0xE#4 ∧ decodeGroupE op = .unknownOpcode op) ∨
      (fieldTop op = 0xF#4 ∧ decodeGroupF op = .unknownOpcode op) := by
  unfold decode
  split
  case h_16 =>
    have top : fieldTop op = 0xF#4 := by simp only [imp_false] at *; bv_omega
    simp [top]
  all_goals rename_i top; simp [top]

/-- Settles O38: the four groups that hold unknown words, each with the values its own selector rejects. -/
theorem unknownWordsAreExactlyTheListed : Obligations.UnknownWordsAreExactlyTheListed := by
  intro op
  refine (decode_unknown_iff op).trans ?_
  rw [decodeGroup0_unknown_iff, decodeGroup8_unknown_iff, decodeGroupE_unknown_iff, decodeGroupF_unknown_iff]
  rfl

/-- Settles O39: each word evaluates. -/
theorem sampleWordsDecodeAsPrinted : Obligations.SampleWordsDecodeAsPrinted := by
  unfold Obligations.SampleWordsDecodeAsPrinted
  decide

end Sys2Proof.Machine
end

section
/-! Frames (R2): what each shared operation may change, said once as a `SameExcept`, and how frames compose. The frame of an
instruction is the chain of the frames of the operations it is made of. -/

namespace Sys2Proof.Machine

/-- Frames compose: what neither step changes is unchanged. -/
theorem State.SameExcept.trans {s t u : State} {a b : List Field} (hst : s.SameExcept t a) (htu : t.SameExcept u b) :
    s.SameExcept u (a ++ b) := by
  intro f hf
  rw [List.mem_append, not_or] at hf
  have h1 := hst f hf.1
  have h2 := htu f hf.2
  cases f <;> simp only [State.sameField] at h1 h2 ⊢
  case v => exact fun r => (h2 r).trans (h1 r)
  case mem => exact fun a => (h2 a).trans (h1 a)
  case disp => exact fun x y => (h2 x y).trans (h1 x y)
  all_goals exact h2.trans h1

/-- A longer list of fields is a weaker frame. -/
theorem State.SameExcept.mono {s t : State} {a b : List Field} (h : s.SameExcept t a) (hab : a ⊆ b) : s.SameExcept t b :=
  fun f hf => h f fun ha => hf (hab ha)

variable (s : State)

theorem State.sameExcept_emit (e : Event) : s.SameExcept (s.emit e) [.events] := by
  intro f hf
  cases f <;> simp [State.sameField] at hf ⊢

theorem State.sameExcept_setReg (x : Nibble) (b : Byte) : s.SameExcept (s.setReg x b) [.v] := by
  intro f hf
  cases f <;> simp [State.sameField] at hf ⊢

theorem State.sameExcept_setFlagThenReg (flag : Byte) (x : Nibble) (result : Byte) :
    s.SameExcept (s.setFlagThenReg flag x result) [.v] := by
  intro f hf
  cases f <;> simp [State.sameField] at hf ⊢

theorem State.sameExcept_setRegsFrom (k : Nat) (bs : List Byte) : s.SameExcept (s.setRegsFrom k bs) [.v] := by
  intro f hf
  cases f <;> simp [State.sameField] at hf ⊢

theorem State.sameExcept_setIndex (w : Word) : s.SameExcept (s.setIndex w) [.index] := by
  intro f hf
  cases f <;> simp [State.sameField] at hf ⊢

theorem State.sameExcept_jump (w : Word) : s.SameExcept (s.jump w) [.pc] := by
  intro f hf
  cases f <;> simp [State.sameField] at hf ⊢

theorem State.sameExcept_advance : s.SameExcept s.advance [.pc] := s.sameExcept_jump _

theorem State.sameExcept_skipIf (taken : Bool) : s.SameExcept (s.skipIf taken) [.pc] := s.sameExcept_jump _

theorem State.sameExcept_setSound (b : Byte) : s.SameExcept (s.setSound b) [.sound] := by
  intro f hf
  cases f <;> simp [State.sameField] at hf ⊢

theorem State.sameExcept_setDisp (d : Display) : s.SameExcept (s.setDisp d) [.disp, .dirty] := by
  intro f hf
  cases f <;> simp [State.sameField] at hf ⊢

theorem State.sameExcept_raise (code : FaultCode) (op : Word) : s.SameExcept (s.raise code op) [.halted, .fault] := by
  intro f hf
  cases f <;> simp [State.sameField] at hf ⊢

theorem State.sameExcept_drawRand : s.SameExcept s.drawRand.2 [.draws] := by
  intro f hf
  cases f <;> simp [State.sameField] at hf ⊢

theorem State.sameExcept_readBytes (a count : Nat) : s.SameExcept (s.readBytes a count).2 [.events] := by
  intro f hf
  cases f <;> simp [State.sameField] at hf ⊢

theorem State.sameExcept_writeBytes (a : Nat) (bs : List Byte) :
    s.SameExcept (s.writeBytes a bs) [.mem, .events] := by
  intro f hf
  cases f <;> simp [State.sameField] at hf ⊢

theorem State.sameExcept_afterFetch : s.SameExcept s.afterFetch [.events] := by
  intro f hf
  cases f <;> simp [State.sameField] at hf ⊢

end Sys2Proof.Machine
end

section
/-! What instructions may change, field by field over all of them (R2, R11, R13, R156, R163): each fact is one use of
`exec_elim`, in which only the writers of the field need a word. -/

namespace Sys2Proof.Machine

/-! ## Values of the address forms -/

@[simp] theorem absoluteAddress_toNat (nnn : Addr12) : (absoluteAddress nnn).toNat = nnn.toNat := by
  have := nnn.isLt
  simp only [absoluteAddress, BitVec.toNat_setWidth]
  omega

/-- `V[0] + nnn` does not wrap: it is at most 0x10FE (R83). -/
@[simp] theorem State.offsetTarget_toNat (s : State) (nnn : Addr12) :
    (s.offsetTarget nnn).toNat = (s.reg 0x0#4).toNat + nnn.toNat := by
  have := nnn.isLt
  have := (s.reg 0x0#4).isLt
  simp only [State.offsetTarget, BitVec.toNat_add, BitVec.toNat_setWidth]
  omega

/-! ## Completion -/

/-- Settles O49: the instructions whose meaning branches answer a next state on every branch, the others by their definition.
-/
theorem everyInstructionAnswersANextState : Obligations.EveryInstructionAnswersANextState := by
  intro i s
  cases i
  case ret => rcases execRet_cases s with ⟨_, e⟩ | ⟨_, _, e⟩ <;> exact ⟨_, e⟩
  case call nnn => rcases execCall_cases nnn s with ⟨_, e⟩ | ⟨_, e⟩ <;> exact ⟨_, e⟩
  case skp x => rcases execSkp_cases x s with ⟨_, e⟩ | ⟨_, _, e⟩ <;> exact ⟨_, e⟩
  case sknp x => rcases execSknp_cases x s with ⟨_, e⟩ | ⟨_, _, e⟩ <;> exact ⟨_, e⟩
  case ldKey x => rcases execLdKey_cases x s with ⟨_, e⟩ | ⟨_, _, _, e⟩ <;> exact ⟨_, e⟩
  all_goals exact ⟨_, rfl⟩

/-! ## One field at a time -/

section
variable {i : Instr} {s t : State}

theorem exec_index (h : exec i s = .next t) (hn : ∀ nnn, i ≠ .ldIndex nnn) (ha : ∀ x, i ≠ .addIndex x)
    (hg : ∀ x, i ≠ .ldGlyph x) : t.index = s.index := by
  revert hn ha hg
  apply exec_elim (P := fun i s t => (∀ nnn, i ≠ .ldIndex nnn) → (∀ x, i ≠ .addIndex x) → (∀ x, i ≠ .ldGlyph x) →
    t.index = s.index) h
  case on_ldIndex => exact fun n hn _ _ => absurd rfl (hn n)
  case on_addIndex => exact fun x _ ha _ => absurd rfl (ha x)
  case on_ldGlyph => exact fun x _ _ hg => absurd rfl (hg x)
  all_goals intros
  all_goals simp

theorem exec_sound (h : exec i s = .next t) (hi : ∀ x, i ≠ .ldSound x) : t.sound = s.sound := by
  revert hi
  apply exec_elim (P := fun i s t => (∀ x, i ≠ .ldSound x) → t.sound = s.sound) h
  case on_ldSound => exact fun x hi => absurd rfl (hi x)
  all_goals intros
  all_goals simp

theorem exec_stack (h : exec i s = .next t) (hi : ∀ nnn, i ≠ .call nnn) : t.stack = s.stack := by
  revert hi
  apply exec_elim (P := fun i s t => (∀ nnn, i ≠ .call nnn) → t.stack = s.stack) h
  case on_call => exact fun n _ hi => absurd rfl (hi n)
  all_goals intros
  all_goals simp

theorem exec_sp (h : exec i s = .next t) (hi : ∀ nnn, i ≠ .call nnn) (hret : i ≠ .ret) : t.sp = s.sp := by
  revert hi hret
  apply exec_elim (P := fun i s t => (∀ nnn, i ≠ .call nnn) → i ≠ .ret → t.sp = s.sp) h
  case on_call => exact fun n _ hi _ => absurd rfl (hi n)
  case on_ret => exact fun _ _ _ hret => absurd rfl hret
  all_goals intros
  all_goals simp

theorem exec_byteAt (h : exec i s = .next t) (hb : ∀ x, i ≠ .ldBcd x) (hs : ∀ x, i ≠ .storeRegs x) (a : Nat) :
    t.byteAt a = s.byteAt a := by
  revert hb hs
  apply exec_elim (P := fun i s t => (∀ x, i ≠ .ldBcd x) → (∀ x, i ≠ .storeRegs x) → t.byteAt a = s.byteAt a) h
  case on_ldBcd => exact fun x hb _ => absurd rfl (hb x)
  case on_storeRegs => exact fun x _ hs => absurd rfl (hs x)
  case on_ret | on_call => intros; rfl
  all_goals intros
  all_goals simp

theorem exec_display (h : exec i s = .next t) (hc : i ≠ .cls) (hd : ∀ x y n, i ≠ .drw x y n) :
    (∀ x y, t.pixelAt x y = s.pixelAt x y) ∧ t.dirty = s.dirty := by
  revert hc hd
  apply exec_elim (P := fun i s t => i ≠ .cls → (∀ x y n, i ≠ .drw x y n) →
    (∀ x y, t.pixelAt x y = s.pixelAt x y) ∧ t.dirty = s.dirty) h
  case on_cls => exact fun hc _ => absurd rfl hc
  case on_drw => exact fun x y n _ _ _ hd => absurd rfl (hd x y n)
  case on_ret | on_call => intros; exact ⟨fun _ _ => rfl, rfl⟩
  all_goals intros
  all_goals simp

theorem exec_key (h : exec i s = .next t) : t.key = s.key := by
  apply exec_elim (P := fun _ s t => t.key = s.key) h
  all_goals intros
  all_goals simp

theorem exec_draws (h : exec i s = .next t) (hi : ∀ x nn, i ≠ .rnd x nn) : t.draws = s.draws := by
  revert hi
  apply exec_elim (P := fun i s t => (∀ x nn, i ≠ .rnd x nn) → t.draws = s.draws) h
  case on_rnd => exact fun x nn hi => absurd rfl (hi x nn)
  all_goals intros
  all_goals simp

theorem exec_wf (h : exec i s = .next t) (hs : s.mem.wf = true) : t.mem.wf = true := by
  revert hs
  apply exec_elim (P := fun _ s t => s.mem.wf = true → t.mem.wf = true) h
  case on_ldBcd | on_storeRegs => intros; exact s.writeBytes_wf _ _ ‹_›
  all_goals intros
  all_goals simpa

end

/-- Settles O51: one lemma per field; the delay timer and the driver's plan are `exec_delay` and `exec_plan`. -/
theorem eachFieldHasOnlyItsWriters : Obligations.EachFieldHasOnlyItsWriters :=
  fun _ _ _ h => ⟨exec_index h, exec_delay h, exec_sound h, exec_stack h, exec_sp h, exec_byteAt h, exec_display h,
    exec_key h, exec_draws h, exec_plan h⟩

/-! ## Events -/

theorem beep_not_mem_diagnostics (kind : AccessKind) (a count : Nat) : Event.beep ∉ diagnostics kind a count := by
  simp [diagnostics]

/-- An instruction adds the diagnostics of one block of memory accesses, an empty one if it makes none (R48). -/
theorem exec_events {i : Instr} {s t : State} (h : exec i s = .next t) :
    ∃ kind a count, t.events = s.events ++ diagnostics kind a count := by
  apply exec_elim (P := fun _ s t => ∃ kind a count, t.events = s.events ++ diagnostics kind a count) h
  case on_drw => exact fun _ _ _ _ _ => ⟨.read, _, _, s.readBytes_events _ _⟩
  case on_loadRegs => exact fun _ => ⟨.read, _, _, (State.setRegsFrom_events ..).trans (s.readBytes_events _ _)⟩
  case on_ldBcd | on_storeRegs => exact fun _ => ⟨.write, _, _, s.writeBytes_events _ _⟩
  all_goals intros
  all_goals exact ⟨.read, 0, 0, by simp⟩

/-- Settles O28: what an instruction adds are diagnostics. -/
theorem noInstructionBeeps : Obligations.NoInstructionBeeps := by
  intro i s t h
  obtain ⟨kind, a, count, he⟩ := exec_events h
  exact ⟨_, he, beep_not_mem_diagnostics kind a count⟩

/-! ## The fault latch -/

/-- The faults an instruction raises, each with its cause (R153 to R155); an unknown opcode is no instruction's. -/
def FaultCause (i : Instr) (s : State) : FaultCode → Prop
  | .unknownOpcode => False
  | .stackUnderflow => i = .ret ∧ s.sp.val = 0
  | .stackOverflow => (∃ nnn, i = .call nnn) ∧ s.sp.val = 16
  | .keyIndexOutOfRange => ∃ x, (i = .skp x ∨ i = .sknp x) ∧ 15 < (s.reg x).toNat

/-- An instruction either leaves the fault latch alone or does nothing but fill it, for a cause of its own (R156). -/
theorem exec_latch {i : Instr} {s t : State} (h : exec i s = .next t) :
    (t.halted = s.halted ∧ t.fault = s.fault) ∨ ∃ code, FaultCause i s code ∧ t = s.raise code (encode i) := by
  apply exec_elim (P := fun i s t => (t.halted = s.halted ∧ t.fault = s.fault) ∨
    ∃ code, FaultCause i s code ∧ t = s.raise code (encode i)) h
  case on_ret_empty => exact fun h0 => .inr ⟨.stackUnderflow, ⟨rfl, h0⟩, rfl⟩
  case on_call_full => exact fun nnn h16 => .inr ⟨.stackOverflow, ⟨⟨nnn, rfl⟩, h16⟩, rfl⟩
  case on_skp_above => exact fun x hx => .inr ⟨.keyIndexOutOfRange, ⟨x, .inl rfl, hx⟩, rfl⟩
  case on_sknp_above => exact fun x hx => .inr ⟨.keyIndexOutOfRange, ⟨x, .inr rfl, hx⟩, rfl⟩
  all_goals intros
  all_goals exact .inl (by simp)

/-- Settles O46: by `exec_latch` an instruction that halts a running core is one that only raises. -/
theorem faultsArePrecise : Obligations.FaultsArePrecise := by
  intro i s t h hs ht
  obtain ⟨hhalt, -⟩ | ⟨code, hcause, rfl⟩ := exec_latch h
  · rw [hhalt, hs] at ht
    cases ht
  · refine ⟨s.sameExcept_raise _ _, ?_⟩
    cases code with
    | unknownOpcode => exact hcause.elim
    | stackUnderflow => exact .inl ⟨hcause.1, hcause.2, rfl⟩
    | stackOverflow => exact .inr (.inl ⟨hcause.1, hcause.2, rfl⟩)
    | keyIndexOutOfRange => exact .inr (.inr ⟨hcause, rfl⟩)

/-! ## The program counter -/

/-- Settles O53: the jumps, the call, the return, the stalled key wait and the four faults go their own way; a skip goes by 4
or 2, every other instruction by 2. -/
theorem pcMovesAsListed : Obligations.PcMovesAsListed := by
  intro i s t h _
  apply exec_elim h
  case on_ret_empty | on_call_full | on_skp_above | on_sknp_above => intros; exact .inl ⟨rfl, rfl⟩
  case on_ldKey_none => exact fun x hx => .inr (.inr (.inr (.inr (.inr (.inr ⟨⟨x, rfl⟩, hx, rfl⟩)))))
  case on_ret => exact fun k hk => .inr (.inr (.inr (.inr (.inr (.inl ⟨k, rfl, hk, rfl⟩)))))
  case on_jpV0 => exact fun nnn => .inr (.inr (.inr (.inr (.inl ⟨nnn, rfl, s.offsetTarget_toNat nnn⟩))))
  case on_jp => exact fun nnn => .inr (.inr (.inr (.inl ⟨nnn, .inl rfl, absoluteAddress_toNat nnn⟩)))
  case on_call => exact fun nnn _ => .inr (.inr (.inr (.inl ⟨nnn, .inr rfl, absoluteAddress_toNat nnn⟩)))
  case on_skp | on_sknp | on_seImm | on_sneImm | on_seReg | on_sneReg =>
    intros
    simp only [State.skipIf_pc]
    split
    · exact .inr (.inr (.inl ⟨rfl, by simp⟩))
    · exact .inr (.inl ⟨rfl, by simp⟩)
  all_goals intros
  all_goals exact .inr (.inl (by simp))

/-! ## Registers -/

theorem State.eq_of_reg_setReg_ne {s : State} {x r : Nibble} {b : Byte} (h : (s.setReg x b).advance.reg r ≠ s.reg r) :
    r = x := by
  by_contra hr
  simp [hr] at h

theorem State.eq_of_reg_setFlagThenReg_ne {s : State} {x r : Nibble} {flag result : Byte}
    (h : (s.setFlagThenReg flag x result).advance.reg r ≠ s.reg r) : r = 0xF#4 ∨ r = x := by
  by_contra hr
  rw [not_or] at hr
  simp [hr.1, hr.2] at h

theorem State.le_of_reg_setRegsFrom_ne {s : State} {x r : Nibble} {bs : List Byte} (hbs : bs.length = x.toNat + 1)
    (h : (s.setRegsFrom 0 bs).advance.reg r ≠ s.reg r) : r.toNat ≤ x.toNat := by
  have := x.isLt
  by_contra hr
  rw [State.advance_reg, State.reg_setRegsFrom _ _ _ (by omega), dif_neg (by omega)] at h
  exact h rfl

/-- Settles O52: beside the block of `Fx65`, an instruction writes `V[x]`, `VF` and `V[x]`, or no register at all. -/
theorem registersChangeOnlyAsDestinations : Obligations.RegistersChangeOnlyAsDestinations := by
  intro i s t r h
  apply exec_elim h
  case on_loadRegs =>
    intro x hne
    rw [← s.readBytes_reg s.dataBase (x.toNat + 1) r] at hne
    exact .inr (.inr ⟨x, rfl, State.le_of_reg_setRegsFrom_ne (s.readBytes_length _ _) hne⟩)
  case on_drw =>
    intro x y n d f hne
    refine .inl ⟨?_, x, y, n, by simp⟩
    by_contra hr
    simp [hr] at hne
  case on_addReg | on_subReg | on_subnReg | on_shr | on_shl =>
    intros
    rename_i hne
    obtain rfl | rfl := State.eq_of_reg_setFlagThenReg_ne hne
    · exact .inl ⟨rfl, by simp⟩
    · exact .inr (.inl (by simp))
  case on_ldImm | on_addImm | on_ldReg | on_orReg | on_andReg | on_xorReg | on_rnd | on_ldFromDelay | on_ldKey =>
    intros
    rename_i hne
    obtain rfl := State.eq_of_reg_setReg_ne hne
    exact .inr (.inl (by simp))
  all_goals intros
  all_goals rename_i hne; simp [State.reg] at hne

end Sys2Proof.Machine
end

section
/-! The invariant (`State.Inv`): an instruction keeps each part of it by the lemma about that part (memory, latch, `pc`,
stack), a transaction keeps it, and choosing the next transaction does not touch it. -/

namespace Sys2Proof.Machine

/-- The invariant speaks of memory, latch, `pc` and stack alone. -/
theorem State.Inv.congr {s t : State} (hs : s.Inv) (hmem : t.mem = s.mem) (hhalted : t.halted = s.halted)
    (hfault : t.fault = s.fault) (hpc : t.pc = s.pc) (hstack : t.stack = s.stack) : t.Inv where
  memory := by rw [hmem]; exact hs.memory
  latch := by rw [hhalted, hfault]; exact hs.latch
  record := by rw [hfault, hpc]; exact hs.record
  counter := by rw [hpc]; exact hs.counter
  slots := by rw [hstack]; exact hs.slots

/-- A running core has no fault record (R22). -/
theorem State.Inv.fault_none {s : State} (hs : s.Inv) (h : s.halted = false) : s.fault = none := by
  simpa [h] using hs.latch

/-- Entering a fault keeps the invariant: the record names the `pc` it leaves (R156). -/
theorem State.Inv.raise {s : State} (hs : s.Inv) (code : FaultCode) (op : Word) : (s.raise code op).Inv where
  memory := hs.memory
  latch := rfl
  record := by rintro r ⟨rfl⟩; rfl
  counter := hs.counter
  slots := hs.slots

/-- An instruction executed at an address of memory takes `pc` no further than 0x10FE, which `Bnnn` reaches (R13). -/
theorem exec_counter {i : Instr} {s t : State} (h : exec i s = .next t) (hs : s.Inv) (hrun : s.halted = false)
    (hpc : s.pc.toNat ≤ 0xFFF) : t.pc.toNat ≤ 0x10FE := by
  rcases pcMovesAsListed i s t h hrun with ⟨_, e⟩ | ⟨e, _⟩ | ⟨e, _⟩ | ⟨nnn, _, e⟩ | ⟨nnn, _, e⟩ | ⟨k, _, _, e⟩ | ⟨_, _, rfl⟩
  · rw [e]; omega
  · rw [e]; bv_omega
  · rw [e]; bv_omega
  · rw [e]; have := nnn.isLt; omega
  · rw [e]; have := nnn.isLt; have := (s.reg 0x0#4).isLt; omega
  · have := hs.slots k
    rw [e]
    bv_omega
  · omega

/-- An instruction executed at an address of memory keeps every stack slot at most 0x0FFF: a call stores that address (R82).
-/
theorem exec_slots {i : Instr} {s t : State} (h : exec i s = .next t) (hs : s.Inv) (hpc : s.pc.toNat ≤ 0xFFF)
    (k : Fin 16) : t.stack[k].toNat ≤ 0xFFF := by
  by_cases hcall : ∃ nnn, i = .call nnn
  · obtain ⟨nnn, rfl⟩ := hcall
    rcases execCall_cases nnn s with ⟨_, e⟩ | ⟨_, e⟩ <;> rw [e] at h <;> cases h
    · exact hs.slots k
    · simp only [Fin.getElem_fin, Vector.getElem_set]
      split
      · exact hpc
      · exact hs.slots k
  · rw [exec_stack h fun nnn e => hcall ⟨nnn, e⟩]
    exact hs.slots k

/-- An instruction executed at an address of memory by a running core keeps the invariant. -/
theorem exec_inv {i : Instr} {s t : State} (h : exec i s = .next t) (hs : s.Inv) (hrun : s.halted = false)
    (hpc : s.pc.toNat ≤ 0xFFF) : t.Inv := by
  rcases exec_latch h with ⟨hhalted, hfault⟩ | ⟨code, _, rfl⟩
  · rw [hrun] at hhalted
    rw [hs.fault_none hrun] at hfault
    exact ⟨exec_wf h hs.memory, by rw [hhalted, hfault]; rfl, by rw [hfault]; nofun, exec_counter h hs hrun hpc,
      exec_slots h hs hpc⟩
  · exact hs.raise _ _

theorem State.Inv.afterFetch {s : State} (hs : s.Inv) : s.afterFetch.Inv := hs.congr rfl rfl rfl rfl rfl

/-- A `Step` keeps the invariant: what it executes lies in memory, since above only zeros are read (R28). -/
theorem coreStep_inv {s t : State} (h : coreStep s = .next t) (hs : s.Inv) : t.Inv := by
  rcases coreStep_cases s with ⟨_, e⟩ | ⟨hrun, i, hd, e⟩ | ⟨_, op, _, e⟩ <;> rw [e] at h
  · cases h; exact hs
  · exact exec_inv h hs.afterFetch hrun (pc_le_of_decoded hd)
  · cases h; exact hs.afterFetch.raise _ _

/-- Settles O56: the reset values themselves. -/
theorem invariantHoldsAtReset : Obligations.InvariantHoldsAtReset where
  memory := State.reset_wf
  latch := rfl
  record := nofun
  counter := by decide
  slots := by decide

theorem State.Inv.writeBytes {s : State} (hs : s.Inv) (a : Nat) (bs : List Byte) : (s.writeBytes a bs).Inv where
  memory := s.writeBytes_wf a bs hs.memory
  latch := by simpa using hs.latch
  record := by simpa using hs.record
  counter := by simpa using hs.counter
  slots := by simpa using hs.slots

theorem load_inv {font rom : List Byte} {s t : State} (h : load font rom s = .next t) (hs : s.Inv) : t.Inv := by
  rcases load_cases font rom s with ⟨_, e⟩ | ⟨_, _, e⟩ | ⟨_, _, _, e⟩ | ⟨_, _, _, _, e⟩ | ⟨_, _, _, _, e⟩ <;>
    rw [e] at h <;> cases h
  · exact hs
  · exact (hs.writeBytes _ font).writeBytes _ rom

/-- Every transaction keeps the invariant; the timer unit and the driver's key and dirty flags are no part of it. -/
theorem transact_inv {r : Transaction} {s t : State} (h : transact r s = .next t) (hs : s.Inv) : t.Inv := by
  cases r with
  | reset => cases h; exact invariantHoldsAtReset.congr rfl rfl rfl rfl rfl
  | load font rom => exact load_inv h hs
  | step => exact coreStep_inv h hs
  | tick => cases h; rw [State.tick_eq]; exact hs.congr rfl rfl rfl rfl rfl
  | setKey k pressed =>
    cases h
    rw [State.setKey]
    split
    · exact hs
    · exact hs.congr rfl rfl rfl rfl rfl
  | clearDirty =>
    cases h
    rw [State.clearDirty]
    split
    · exact hs
    · exact hs.congr rfl rfl rfl rfl rfl
  | isDirty | pixelAt x y => cases h; exact hs

/-- Settles O57: a step is a transaction on the state with another plan, of which the invariant does not speak. -/
theorem everyStepKeepsTheInvariant : Obligations.EveryStepKeepsTheInvariant := by
  intro s t hs h
  have hchoose : s.choose.2.Inv := by rw [s.choose_snd]; exact hs.congr rfl rfl rfl rfl rfl
  exact transact_inv h hchoose

end Sys2Proof.Machine
end

section
/-! Memory (R41, R42, R48): one checked access, and the instructions and the transaction that access a block of bytes:
`Fx33`, `Fx55`, `Fx65` and `Load`. -/

namespace Sys2Proof.Machine

/-! ## Diagnostics -/

/-- A block that ends inside memory has no diagnostic. -/
theorem diagnostics_inside (kind : AccessKind) {a count : Nat} (h : a + count ≤ 0x1000) : diagnostics kind a count = [] := by
  simp only [diagnostics, List.map_eq_nil_iff, List.filter_eq_nil_iff, List.mem_range'_1, decide_eq_true_eq]
  omega

theorem diagnostics_one_above (kind : AccessKind) {a : Nat} (h : 0xFFF < a) : diagnostics kind a 1 = [.diag a kind] := by
  simp [diagnostics, h]

/-! ## One access -/

theorem State.memRead_above (s : State) {a : Nat} (h : 0xFFF < a) : s.memRead a = (0x00#8, s.emit (.diag a .read)) := by
  rw [State.memRead, s.byteAt_above h, if_neg (by omega)]

theorem State.memWrite_above (s : State) {a : Nat} (h : 0xFFF < a) (b : Byte) : s.memWrite a b = s.emit (.diag a .write) :=
  if_neg (by omega)

/-- Settles O34: the two branches of a checked read. -/
theorem checkedReadNeverFails : Obligations.CheckedReadNeverFails := by
  intro s a
  refine ⟨fun h => ?inside, fun h => ?above⟩
  case inside => rw [State.memRead, State.byteAt, if_pos h, if_pos h]
  case above =>
    rw [s.memRead_above h]
    exact ⟨rfl, rfl, s.sameExcept_emit _⟩

/-- A write inside memory emits nothing, so memory is all it changes. -/
theorem State.sameExcept_writeBytes_inside (s : State) {a : Nat} {bs : List Byte} (h : a + bs.length ≤ 0x1000) :
    s.SameExcept (s.writeBytes a bs) [.mem] := by
  intro f hf
  by_cases hev : f = .events
  · subst hev
    simp [State.sameField, diagnostics_inside .write h]
  · exact s.sameExcept_writeBytes a bs f (by simpa [hev] using hf)

/-- Settles O35: a single write is a block of one. -/
theorem checkedWriteIsReadBackOrDropped : Obligations.CheckedWriteIsReadBackOrDropped := by
  intro s a b hwf
  refine ⟨s.writeBytes_wf a [b] hwf, fun h => ?inside, fun h => ?above⟩
  case inside =>
    exact ⟨s.byteAt_memWrite_same hwf h b, fun a' ha => s.byteAt_memWrite_ne ha b,
      s.sameExcept_writeBytes_inside (bs := [b]) (Nat.succ_le_succ h)⟩
  case above =>
    rw [s.memWrite_above h]
    exact ⟨rfl, s.sameExcept_emit _⟩

/-! ## Stores -/

/-- Writing a block and advancing: the frame, the diagnostics and the bytes outside the block. -/
theorem State.writeBytes_advance (s : State) (bs : List Byte) :
    (∀ a, a < s.dataBase ∨ s.dataBase + bs.length ≤ a → (s.writeBytes s.dataBase bs).advance.byteAt a = s.byteAt a) ∧
    (s.writeBytes s.dataBase bs).advance.events = s.events ++ diagnostics .write s.dataBase bs.length ∧
    (s.writeBytes s.dataBase bs).advance.pc = s.pc + 2#16 ∧
    s.SameExcept (s.writeBytes s.dataBase bs).advance [.mem, .events, .pc] :=
  ⟨fun _ ha => s.byteAt_writeBytes_outside _ _ (by omega), by simp, by simp,
    (s.sameExcept_writeBytes _ _).trans (State.sameExcept_advance _)⟩

/-- The digits of `Fx33` as numbers (R123). -/
theorem decimalDigits_toNat (b : Byte) :
    (decimalDigits b).map BitVec.toNat = [b.toNat / 100, b.toNat / 10 % 10, b.toNat % 10] := by
  simp [decimalDigits]

/-- A digit stored by `Fx33` is read back where it lies in memory. -/
theorem byteAt_ldBcd (s : State) (hwf : s.mem.wf = true) (x : Nibble) (k : Fin 3) (ha : s.index.toNat + k.val ≤ 0xFFF) :
    ((s.writeBytes s.dataBase (decimalDigits (s.reg x))).byteAt (s.index.toNat + k.val)).toNat =
      [(s.reg x).toNat / 100, (s.reg x).toNat / 10 % 10, (s.reg x).toNat % 10][k] := by
  have h := s.byteAt_writeBytes_inside hwf s.dataBase (decimalDigits (s.reg x)) k.isLt ha
  rw [State.dataBase] at h ⊢
  rw [h]
  simp only [← decimalDigits_toNat]
  exact (List.getElem_map BitVec.toNat).symm

/-- Settles O19: `byteAt_ldBcd` for the three digits, and the effect every block store has. -/
theorem bcdStoresThreeDigits : Obligations.BcdStoresThreeDigits := by
  refine ⟨fun _ h => decode_eq_of_row (.ldBcd _) h rfl, fun x s hwf => ?_⟩
  obtain ⟨hout, hev, hpc, hframe⟩ := s.writeBytes_advance (decimalDigits (s.reg x))
  exact ⟨_, rfl, byteAt_ldBcd s hwf x 0, byteAt_ldBcd s hwf x 1, byteAt_ldBcd s hwf x 2,
    fun a ha => hout a ha, hev, hpc, hframe⟩

/-- A register stored by `Fx55` is read back where its byte lies in memory. -/
theorem byteAt_storeRegs (s : State) (hwf : s.mem.wf = true) (x r : Nibble) (hr : r.toNat ≤ x.toNat)
    (ha : s.index.toNat + r.toNat ≤ 0xFFF) :
    (s.writeBytes s.dataBase (s.regsTo x)).byteAt (s.index.toNat + r.toNat) = s.reg r := by
  have hlen : r.toNat < (s.regsTo x).length := by rw [s.regsTo_length]; omega
  rw [← s.regsTo_getElem x r hlen]
  exact s.byteAt_writeBytes_inside hwf _ _ hlen ha

/-- Settles O20: `byteAt_storeRegs`, and the effect every block store has. -/
theorem storeRegistersFillsTheBlock : Obligations.StoreRegistersFillsTheBlock := by
  refine ⟨fun _ h => decode_eq_of_row (.storeRegs _) h rfl, fun x s hwf => ?_⟩
  obtain ⟨hout, hev, hpc, hframe⟩ := s.writeBytes_advance (s.regsTo x)
  rw [s.regsTo_length] at hout hev
  exact ⟨_, rfl, byteAt_storeRegs s hwf x, fun a ha => hout a ha, hev, hpc, hframe⟩

/-! ## Loads -/

/-- The registers after `Fx65`: the bytes of the block up to `V[x]`, the old values above (R125). -/
theorem reg_loadRegs {s t : State} {x : Nibble} (h : exec (.loadRegs x) s = .next t) (r : Nibble) :
    t.reg r = if r.toNat ≤ x.toNat then s.byteAt (s.index.toNat + r.toNat) else s.reg r := by
  cases h
  have := x.isLt
  have hlen := s.readBytes_length s.dataBase (x.toNat + 1)
  rw [State.advance_reg, State.reg_setRegsFrom _ _ _ (by omega)]
  split_ifs with hin hr
  · simp [s.readBytes_fst, State.dataBase]
  · omega
  · omega
  · exact s.readBytes_reg ..

/-- Settles O21: `reg_loadRegs` in its three cases; the events are the block's and the frame is a read, register writes, an
advance. -/
theorem loadRegistersReadsTheBlock : Obligations.LoadRegistersReadsTheBlock := by
  refine ⟨fun _ h => decode_eq_of_row (.loadRegs _) h rfl, fun x s => ⟨_, rfl, ?inside, ?above, ?kept, ?events, ?pc, ?frame⟩⟩
  case inside => exact fun r hr _ => by rw [reg_loadRegs rfl, if_pos hr]
  case above => exact fun r hr ha => by rw [reg_loadRegs rfl, if_pos hr, s.byteAt_above ha]
  case kept => exact fun r hr => by rw [reg_loadRegs rfl, if_neg (by omega)]
  case events => simp [State.dataBase]
  case pc => simp
  case frame =>
    exact (((s.sameExcept_readBytes _ _).trans (State.sameExcept_setRegsFrom _ _ _)).trans
      (State.sameExcept_advance _)).mono (by decide)

/-- Settles O22: `Fx65` reads from the block the bytes `Fx55` stored there. -/
theorem storeThenLoadRoundTrips : Obligations.StoreThenLoadRoundTrips := by
  intro x s t t' u hwf hblock hst hindex hbytes hld r hr
  cases hst
  rw [reg_loadRegs hld, if_pos hr, hindex, hbytes]
  simp only [State.advance_index, State.writeBytes_index]
  exact byteAt_storeRegs s hwf x r hr (by omega)

/-! ## Load -/

theorem wellFormed_font_iff {font : List Byte} : WellFormed.font font = true ↔ font.length = 80 := beq_iff_eq

theorem wellFormed_rom_iff {rom : List Byte} : WellFormed.rom rom = true ↔ rom.length ≤ 3583 := decide_eq_true_iff

theorem load_after_reset {font rom : List Byte} (s : State) (hfont : font.length = 80) (hrom : rom.length ≤ 3583) :
    load font rom s.restart = .next (s.restart.loadImage font rom) := by
  rcases load_cases font rom s.restart with ⟨h, _⟩ | ⟨_, h, _⟩ | ⟨_, _, h, _⟩ | ⟨_, _, _, _, e⟩ | ⟨_, _, _, h, _⟩
  · cases h
  · rw [wellFormed_font_iff.2 hfont] at h
    cases h
  · rw [wellFormed_rom_iff.2 hrom] at h
    cases h
  · exact e
  · exact absurd s.restart_restart.symm h

theorem State.restart_byteAt (s : State) (a : Nat) : s.restart.byteAt a = 0#8 := by
  rw [State.byteAt]
  split <;> rfl

/-- The image `Load` leaves (R181): neither block reaches into the other. -/
theorem State.loadImage_byteAt {font rom : List Byte} (s : State) (hfont : font.length = 80) (hrom : rom.length ≤ 3583)
    (a : Nat) : (s.restart.loadImage font rom).byteAt a = if h : a < font.length then font[a]
      else if h : 0x200 ≤ a ∧ a - 0x200 < rom.length then rom[a - 0x200] else 0#8 := by
  have hwf : s.restart.mem.wf = true := State.reset_wf
  rw [State.loadImage, Config.fontBase, Config.romBase]
  split_ifs with h1 h2
  · rw [State.byteAt_writeBytes_outside _ _ _ (by omega)]
    simpa using State.byteAt_writeBytes_inside _ hwf 0 font h1 (by omega)
  · obtain ⟨hlo, hhi⟩ := h2
    have := State.byteAt_writeBytes_inside _ (s.restart.writeBytes_wf 0 font hwf) 0x200 rom hhi (by omega)
    rwa [Nat.add_sub_cancel' hlo] at this
  · rw [State.byteAt_writeBytes_outside _ _ _ (by omega), State.byteAt_writeBytes_outside _ _ _ (by omega),
      s.restart_byteAt]

/-- Settles O32: of all branches of `Load` only the image is left; both its blocks lie in memory, so nothing is emitted. -/
theorem loadPlacesFontAndRom : Obligations.LoadPlacesFontAndRom := by
  intro font rom s hfont hrom
  refine ⟨_, load_after_reset s hfont hrom, s.loadImage_byteAt hfont hrom, ?_⟩
  have hf := s.restart.sameExcept_writeBytes_inside (a := Config.fontBase) (bs := font) (by rw [hfont]; decide)
  have hr := State.sameExcept_writeBytes_inside (s.restart.writeBytes Config.fontBase font) (a := Config.romBase) (bs := rom)
    (by rw [Config.romBase]; omega)
  exact (hf.trans hr).mono (by decide)

/-- Settles O33: the check on ROM comes after the one on FONT, which holds. -/
theorem oversizedRomIsRefused : Obligations.OversizedRomIsRefused := by
  intro font rom s hs hfont hrom
  have hr : WellFormed.rom rom = false := Bool.eq_false_iff.2 (mt wellFormed_rom_iff.1 (by omega))
  change load font rom s = _
  rw [load, hs, wellFormed_font_iff.2 hfont, hr]
  rfl

end Sys2Proof.Machine
end

section
/-! Drawing (R130 to R132): the pixels and the flag after `Dxyn` in terms of the sprite mask, whose rows are the bytes at `I`
upward. -/

namespace Sys2Proof.Machine

/-- The `count` bytes at `I` upward, as a draw reads them: the sprite (R131). -/
def State.sprite (s : State) (count : Nat) : List Byte := (List.range count).map (fun row => s.byteAt (s.index.toNat + row))

@[simp] theorem State.sprite_length (s : State) (count : Nat) : (s.sprite count).length = count := by simp [State.sprite]

theorem State.readBytes_sprite (s : State) (count : Nat) : (s.readBytes s.dataBase count).1 = s.sprite count := by
  rw [State.readBytes_fst, List.range'_eq_map_range, List.map_map]
  rfl

section
variable {s t : State} {x y n : Nibble}

/-- A draw XORs the mask of its sprite into the display (R131, R132). -/
theorem pixelAt_drw (h : exec (.drw x y n) s = .next t) (px : Fin 64) (py : Fin 32) :
    t.pixelAt px py = (s.pixelAt px py ^^ spriteMask (s.sprite n.toNat) (s.reg x) (s.reg y) px py) := by
  have hn := n.isLt
  cases h
  rw [State.advance_pixelAt, State.setDisp_pixelAt, s.readBytes_sprite, drawRows_pixel _ _ _ (by rw [s.sprite_length]; omega)]
  rfl

/-- `VF` after a draw: 1 if the mask and the old display have a pixel in common, else 0 (R132). -/
theorem flag_drw (h : exec (.drw x y n) s = .next t) :
    ∃ hit : Bool, t.reg 0xF#4 = flagByte hit ∧
      (hit = true ↔ ∃ px py, spriteMask (s.sprite n.toNat) (s.reg x) (s.reg y) px py = true ∧ s.pixelAt px py = true) := by
  have hn := n.isLt
  cases h
  refine ⟨_, ?_, drawRows_hit (s.reg x) (s.reg y) (s.sprite n.toNat) (by rw [s.sprite_length]; omega) s.disp⟩
  simp [collisionFlag, s.readBytes_sprite]

/-- A pixel that a draw turned off was on and in the mask. -/
theorem pixel_turned_off_iff (h : exec (.drw x y n) s = .next t) (px : Fin 64) (py : Fin 32) :
    (s.pixelAt px py = true ∧ t.pixelAt px py = false) ↔
      (spriteMask (s.sprite n.toNat) (s.reg x) (s.reg y) px py = true ∧ s.pixelAt px py = true) := by
  rw [pixelAt_drw h]
  cases s.pixelAt px py <;> simp

end

theorem flagByte_eq_one_iff (hit : Bool) : flagByte hit = 1#8 ↔ hit = true := by cases hit <;> decide

theorem flagByte_zero_or_one (hit : Bool) : flagByte hit = 0#8 ∨ flagByte hit = 1#8 := by cases hit <;> decide

/-- Settles O2: `pixelAt_drw` and `flag_drw`; a pixel went off exactly where the mask meets the old display. -/
theorem drwXorsSpriteMask : Obligations.DrwXorsSpriteMask := by
  refine ⟨fun _ h => decode_eq_of_row (.drw _ _ _) h ⟨rfl, rfl, rfl⟩, fun x y n s =>
    ⟨_, rfl, pixelAt_drw rfl, ?collision, ?bit, ?others, rfl, ?events, ?pc, ?frame⟩⟩
  case collision =>
    obtain ⟨hit, hflag, hhit⟩ := flag_drw (s := s) (x := x) (y := y) (n := n) rfl
    rw [hflag, flagByte_eq_one_iff, hhit]
    exact exists_congr fun px => exists_congr fun py => (pixel_turned_off_iff rfl px py).symm
  case bit =>
    obtain ⟨hit, hflag, -⟩ := flag_drw (s := s) (x := x) (y := y) (n := n) rfl
    rw [hflag]
    exact flagByte_zero_or_one hit
  case others => exact fun r hr => by simp [hr]
  case events => simp [State.dataBase]
  case pc => simp
  case frame =>
    exact ((((s.sameExcept_readBytes _ _).trans (State.sameExcept_setReg _ _ _)).trans
      (State.sameExcept_setDisp _ _)).trans (State.sameExcept_advance _)).mono (by decide)

/-- Settles O3: the second draw has the mask of the first, since memory and `I` are as they were, and XOR with it undoes
itself. -/
theorem drawingTwiceRestoresDisplay : Obligations.DrawingTwiceRestoresDisplay := by
  intro x y n s t u hst hx hy htu px py
  have hindex : t.index = s.index := exec_index hst (by nofun) (by nofun) (by nofun)
  have hbytes : t.byteAt = s.byteAt := funext (exec_byteAt hst (by nofun) (by nofun))
  have hsprite : t.sprite n.toNat = s.sprite n.toNat := by rw [State.sprite, hindex, hbytes, State.sprite]
  rw [pixelAt_drw htu, pixelAt_drw hst, hsprite, hx, hy, Bool.xor_assoc, Bool.xor_self, Bool.xor_false]

/-- Settles O1: the new display is blank, and the row's mask is the whole word. -/
theorem clsTurnsEveryPixelOff : Obligations.ClsTurnsEveryPixelOff := by
  refine ⟨decode_iff_of_whole_word .cls rfl fun _ => trivial, fun s => ⟨_, rfl, fun x y => ?_, rfl, rfl, ?_⟩⟩
  · exact Display.pixel_blank x y
  · exact (s.sameExcept_setDisp _).trans (State.sameExcept_advance _)

end Sys2Proof.Machine
end

section
/-! The instructions without memory or display, one statement each: control transfer (R80 to R83), skips (R90 to R95),
arithmetic and logic (R102 to R113), the index register (R120 to R122), timers and keys (R140 to R143). -/

namespace Sys2Proof.Machine

/-! ## Control transfer -/

/-- Settles O4: the case of `execRet_cases` with an address on the stack. -/
theorem retResumesAfterTheCall : Obligations.RetResumesAfterTheCall := by
  refine ⟨decode_iff_of_whole_word .ret rfl fun _ => trivial, fun s k hk => ?_⟩
  rcases execRet_cases s with ⟨h0, _⟩ | ⟨j, hj, e⟩
  · omega
  · obtain rfl : j = k := Fin.ext (by omega)
    refine ⟨_, e, rfl, rfl, fun f hf => ?_⟩
    cases f <;> simp [State.sameField, State.reg, State.byteAt, State.pixelAt] at hf ⊢

/-- Settles O5: a jump to the zero-extended field. -/
theorem jpTakesPcToItsField : Obligations.JpTakesPcToItsField :=
  ⟨fun _ h => decode_eq_of_row (.jp _) h rfl, fun nnn s => ⟨_, rfl, absoluteAddress_toNat nnn, s.sameExcept_jump _⟩⟩

/-- Settles O6: the case of `execCall_cases` with a free slot. -/
theorem callPushesItsOwnAddress : Obligations.CallPushesItsOwnAddress := by
  refine ⟨fun _ h => decode_eq_of_row (.call _) h rfl, fun nnn s k hk => ?_⟩
  rcases execCall_cases nnn s with ⟨h16, _⟩ | ⟨hlt, e⟩
  · omega
  · refine ⟨_, e, by rw [← hk], ?slot, fun j hj => ?others, absoluteAddress_toNat nnn, fun f hf => ?frame⟩
    case slot => simp [hk]
    case others =>
      have hne : s.sp.val ≠ j.val := fun e => hj (Fin.ext (by omega))
      simp [Vector.getElem_set_ne _ _ hne]
    case frame => cases f <;> simp [State.sameField, State.reg, State.byteAt, State.pixelAt] at hf ⊢

/-! ## Skips -/

/-- A skip on a condition (R96). -/
theorem State.skipIf_effect (s : State) (taken : Bool) :
    (taken = true → (s.skipIf taken).pc = s.pc + 4#16) ∧ (taken = false → (s.skipIf taken).pc = s.pc + 2#16) ∧
    s.SameExcept (s.skipIf taken) [.pc] :=
  ⟨fun h => by simp [h], fun h => by simp [h], s.sameExcept_skipIf taken⟩

/-- Settles O8: `skipIf_effect` on equality and on inequality with the immediate. -/
theorem immediateSkipsCompare : Obligations.ImmediateSkipsCompare := by
  refine ⟨fun _ h => decode_eq_of_row (.seImm _ _) h ⟨rfl, rfl⟩, fun _ h => decode_eq_of_row (.sneImm _ _) h ⟨rfl, rfl⟩,
    fun x nn s => ⟨⟨_, rfl, ?_⟩, ⟨_, rfl, ?_⟩⟩⟩
  · simpa using s.skipIf_effect (s.reg x == nn)
  · simpa using s.skipIf_effect (s.reg x != nn)

/-- Settles O9: `skipIf_effect` on equality and on inequality of the registers, which `x` = `y` decides. -/
theorem registerSkipsCompare : Obligations.RegisterSkipsCompare := by
  refine ⟨fun _ h => decode_eq_of_row (.seReg _ _) h ⟨rfl, rfl⟩, fun _ h => decode_eq_of_row (.sneReg _ _) h ⟨rfl, rfl⟩,
    fun x y s => ⟨?_, ?_⟩⟩
  · obtain ⟨htaken, hnot, hframe⟩ := s.skipIf_effect (s.reg x == s.reg y)
    exact ⟨_, rfl, fun h => htaken (by simp [h]), fun h => hnot (by simp [h]), fun h => htaken (by simp [h]), hframe⟩
  · obtain ⟨htaken, hnot, hframe⟩ := s.skipIf_effect (s.reg x != s.reg y)
    exact ⟨_, rfl, fun h => htaken (by simp [h]), fun h => hnot (by simp [h]), fun h => hnot (by simp [h]), hframe⟩

/-- Settles O10: the cases of the two key skips whose key number is in range. -/
theorem keySkipsSampleTheKey : Obligations.KeySkipsSampleTheKey := by
  refine ⟨fun _ h => decode_eq_of_row (.skp _) h rfl, fun _ h => decode_eq_of_row (.sknp _) h rfl,
    fun x s k hk => ⟨?_, ?_⟩⟩
  · rcases execSkp_cases x s with ⟨h15, _⟩ | ⟨j, hj, e⟩
    · omega
    · obtain rfl : j = k := Fin.ext (by omega)
      exact ⟨_, e, rfl, s.sameExcept_skipIf _⟩
  · rcases execSknp_cases x s with ⟨h15, _⟩ | ⟨j, hj, e⟩
    · omega
    · obtain rfl : j = k := Fin.ext (by omega)
      exact ⟨_, e, by cases s.key[j] <;> simp, s.sameExcept_skipIf _⟩

/-- Settles O45: the cases of the two key skips whose key number is out of range. -/
theorem keyNumberAbove15IsAFault : Obligations.KeyNumberAbove15IsAFault := by
  intro x s hx i hi
  have e : exec i s = .next (s.raise .keyIndexOutOfRange (encode i)) := by
    simp only [List.mem_cons, List.not_mem_nil, or_false] at hi
    obtain rfl | rfl := hi
    · rcases execSkp_cases x s with ⟨_, e⟩ | ⟨k, hk, _⟩
      · exact e
      · omega
    · rcases execSknp_cases x s with ⟨_, e⟩ | ⟨k, hk, _⟩
      · exact e
      · omega
  exact ⟨_, e, rfl, rfl, s.sameExcept_raise _ _⟩

/-- Settles O44: the faulting cases of `execCall_cases` and `execRet_cases`. -/
theorem stackOverrunsAreFaults : Obligations.StackOverrunsAreFaults := by
  refine ⟨fun nnn s h16 => ?_, fun s h0 => ?_⟩
  · rcases execCall_cases nnn s with ⟨_, e⟩ | ⟨hlt, _⟩
    · exact ⟨_, e, rfl, rfl, s.sameExcept_raise _ _⟩
    · omega
  · rcases execRet_cases s with ⟨_, e⟩ | ⟨k, hk, _⟩
    · exact ⟨_, e, rfl, rfl, s.sameExcept_raise _ _⟩
    · omega

/-! ## Results in registers -/

/-- Writing one register and advancing. -/
theorem State.setReg_advance (s : State) (x : Nibble) (b : Byte) :
    (s.setReg x b).advance.reg x = b ∧ (∀ r, r ≠ x → (s.setReg x b).advance.reg r = s.reg r) ∧
    (s.setReg x b).advance.pc = s.pc + 2#16 ∧ s.SameExcept (s.setReg x b).advance [.v, .pc] :=
  ⟨by simp, fun r hr => by simp [hr], rfl, (s.sameExcept_setReg x b).trans (State.sameExcept_advance _)⟩

/-- Writing the flag, then one register, and advancing: the register wins where it is `VF` (R101). -/
theorem State.setFlagThenReg_advance (s : State) (flag : Byte) (x : Nibble) (b : Byte) :
    (s.setFlagThenReg flag x b).advance.reg x = b ∧
    (x ≠ 0xF#4 → (s.setFlagThenReg flag x b).advance.reg 0xF#4 = flag) ∧
    (∀ r, r ≠ x → r ≠ 0xF#4 → (s.setFlagThenReg flag x b).advance.reg r = s.reg r) ∧
    (s.setFlagThenReg flag x b).advance.pc = s.pc + 2#16 ∧
    s.SameExcept (s.setFlagThenReg flag x b).advance [.v, .pc] :=
  ⟨by simp, fun hx => by simp [hx.symm], fun r hr hf => by simp [hr, hf], rfl,
    (s.sameExcept_setFlagThenReg flag x b).trans (State.sameExcept_advance _)⟩

/-- Settles O11: one register written, with the immediate or the sum. -/
theorem immediateLoadAndAdd : Obligations.ImmediateLoadAndAdd := by
  refine ⟨fun _ h => decode_eq_of_row (.ldImm _ _) h ⟨rfl, rfl⟩, fun _ h => decode_eq_of_row (.addImm _ _) h ⟨rfl, rfl⟩,
    fun x nn s => ⟨⟨_, rfl, s.setReg_advance x nn⟩, ?_⟩⟩
  obtain ⟨hx, hrest⟩ := s.setReg_advance x (s.reg x + nn)
  exact ⟨_, rfl, by rw [hx, BitVec.toNat_add], hrest⟩

/-- Settles O12: one register written, in each of the four instructions. -/
theorem copyAndLogicLeaveTheFlag : Obligations.CopyAndLogicLeaveTheFlag := by
  refine ⟨fun _ h => decode_eq_of_row (.ldReg _ _) h ⟨rfl, rfl⟩, fun _ h => decode_eq_of_row (.orReg _ _) h ⟨rfl, rfl⟩,
    fun _ h => decode_eq_of_row (.andReg _ _) h ⟨rfl, rfl⟩, fun _ h => decode_eq_of_row (.xorReg _ _) h ⟨rfl, rfl⟩,
    fun x y s => ?_⟩
  simp only [List.forall_mem_cons]
  exact ⟨⟨_, rfl, s.setReg_advance _ _⟩, ⟨_, rfl, s.setReg_advance _ _⟩, ⟨_, rfl, s.setReg_advance _ _⟩,
    ⟨_, rfl, s.setReg_advance _ _⟩, by nofun⟩

/-- Settles O13: the flag and then the sum. -/
theorem addSetsCarryThenSum : Obligations.AddSetsCarryThenSum := by
  refine ⟨fun _ h => decode_eq_of_row (.addReg _ _) h ⟨rfl, rfl⟩, fun x y s => ?_⟩
  obtain ⟨hx, hflag, hrest⟩ := s.setFlagThenReg_advance (carryFlag (s.reg x) (s.reg y)) x (s.reg x + s.reg y)
  exact ⟨_, rfl, by rw [hx, BitVec.toNat_add], fun hne => by rw [hflag hne]; simp [carryFlag, flagByte], hrest⟩

/-- Settles O14: both instructions write the flag and then the difference, with the operands exchanged. -/
theorem subtractSetsStrictlyGreater : Obligations.SubtractSetsStrictlyGreater := by
  refine ⟨fun _ h => decode_eq_of_row (.subReg _ _) h ⟨rfl, rfl⟩, fun _ h => decode_eq_of_row (.subnReg _ _) h ⟨rfl, rfl⟩,
    fun x y s q hq => ?_⟩
  have he : exec q.1 s = .next (s.setFlagThenReg (greaterFlag q.2.1 q.2.2) x (q.2.1 - q.2.2)).advance := by
    simp only [List.mem_cons, List.not_mem_nil, or_false] at hq
    obtain rfl | rfl := hq <;> rfl
  obtain ⟨hx, hflag, hrest⟩ := s.setFlagThenReg_advance (greaterFlag q.2.1 q.2.2) x (q.2.1 - q.2.2)
  refine ⟨_, he, ?_, fun hne => by rw [hflag hne]; simp [greaterFlag, flagByte], hrest⟩
  have := q.2.2.isLt
  rw [hx, BitVec.toNat_sub]
  omega

theorem flagByte_toNat (condition : Bool) : (flagByte condition).toNat = condition.toNat := by cases condition <;> rfl

theorem lowBitFlag_toNat (a : Byte) : (lowBitFlag a).toNat = a.toNat % 2 := by
  rw [lowBitFlag, flagByte_toNat, BitVec.getLsbD, Nat.toNat_testBit, Nat.pow_zero, Nat.div_one]

theorem highBitFlag_toNat (a : Byte) : (highBitFlag a).toNat = a.toNat / 128 := by
  have := a.isLt
  rw [highBitFlag, flagByte_toNat, BitVec.getLsbD, Nat.toNat_testBit]
  omega

/-- Settles O15: both instructions write the flag and then the shifted value. -/
theorem shiftsMoveTheBitOutToTheFlag : Obligations.ShiftsMoveTheBitOutToTheFlag := by
  refine ⟨fun _ h => decode_eq_of_row (.shr _) h rfl, fun _ h => decode_eq_of_row (.shl _) h rfl, fun x s => ⟨?_, ?_⟩⟩
  · obtain ⟨hx, hflag, hrest⟩ := s.setFlagThenReg_advance (lowBitFlag (s.reg x)) x (s.reg x >>> 1)
    refine ⟨_, rfl, ?_, fun hne => ?_, hrest⟩
    · rw [hx, BitVec.toNat_ushiftRight, Nat.shiftRight_eq_div_pow]
    · rw [hflag hne, lowBitFlag_toNat]
  · obtain ⟨hx, hflag, hrest⟩ := s.setFlagThenReg_advance (highBitFlag (s.reg x)) x (s.reg x <<< 1)
    refine ⟨_, rfl, ?_, fun hne => ?_, hrest⟩
    · rw [hx, BitVec.toNat_shiftLeft, Nat.shiftLeft_eq]
    · rw [hflag hne, highBitFlag_toNat]

/-- Settles O16: one register written after one byte is drawn. -/
theorem rndMasksOneFreshByte : Obligations.RndMasksOneFreshByte := by
  refine ⟨fun _ h => decode_eq_of_row (.rnd _ _) h ⟨rfl, rfl⟩, fun x nn s => ?_⟩
  obtain ⟨hx, hothers, hpc, hframe⟩ := s.drawRand.2.setReg_advance x (s.drawRand.1 &&& nn)
  refine ⟨_, rfl, hx, ?_, rfl, hothers, hpc, (s.sameExcept_drawRand.trans hframe).mono (by decide)⟩
  rw [hx, BitVec.and_assoc, BitVec.and_not_self]
  exact BitVec.and_zero

/-! ## The index register -/

/-- Writing `I` and advancing. -/
theorem State.setIndex_advance (s : State) (w : Word) :
    (s.setIndex w).advance.pc = s.pc + 2#16 ∧ s.SameExcept (s.setIndex w).advance [.index, .pc] :=
  ⟨rfl, (s.sameExcept_setIndex w).trans (State.sameExcept_advance _)⟩

/-- Settles O17: five times a byte does not wrap in 16 bits. -/
theorem indexTakesFieldOrGlyphAddress : Obligations.IndexTakesFieldOrGlyphAddress := by
  refine ⟨fun _ h => decode_eq_of_row (.ldIndex _) h rfl, fun _ h => decode_eq_of_row (.ldGlyph _) h rfl,
    fun nnn s => ⟨_, rfl, absoluteAddress_toNat nnn, s.setIndex_advance _⟩, fun x s => ⟨_, rfl, ?_, s.setIndex_advance _⟩⟩
  have := (s.reg x).isLt
  simp only [State.advance_index, State.setIndex_index, State.glyphAddress, BitVec.toNat_mul, BitVec.toNat_setWidth]
  simp
  omega

/-- Settles O18: the 16-bit sum as a remainder. -/
theorem indexAddWrapsWithoutFlag : Obligations.IndexAddWrapsWithoutFlag := by
  refine ⟨fun _ h => decode_eq_of_row (.addIndex _) h rfl, fun x s => ⟨_, rfl, ?_, s.setIndex_advance _⟩⟩
  simp [State.indexPlus]

/-! ## Timers and keys -/

/-- Settles O23: one register written, with the delay timer. -/
theorem delayTimerIsReadIntoRegister : Obligations.DelayTimerIsReadIntoRegister :=
  ⟨fun _ h => decode_eq_of_row (.ldFromDelay _) h rfl, fun x s => ⟨_, rfl, s.setReg_advance x s.delay⟩⟩

/-- Settles O24: the two cases of `execLdKey_cases`; the highest pressed key is unique. -/
theorem keyWaitTakesTheHighestKeyOrStalls : Obligations.KeyWaitTakesTheHighestKeyOrStalls := by
  refine ⟨fun _ h => decode_eq_of_row (.ldKey _) h rfl, fun x s k hk hlast => ?pressed, fun x s hnone => ?none⟩
  case pressed =>
    rcases execLdKey_cases x s with ⟨hnone, _⟩ | ⟨j, hj, hjlast, e⟩
    · rw [hnone k] at hk
      cases hk
    · obtain rfl : j = k := by
        rcases lt_trichotomy j k with h | h | h
        · rw [hjlast k h] at hk
          cases hk
        · exact h
        · rw [hlast j h] at hj
          cases hj
      obtain ⟨hx, hrest⟩ := s.setReg_advance x (BitVec.ofNat 8 j.val)
      exact ⟨_, e, by rw [hx, BitVec.toNat_ofNat]; omega, hrest⟩
  case none =>
    rcases execLdKey_cases x s with ⟨_, e⟩ | ⟨j, hj, _⟩
    · exact e
    · rw [hnone j] at hj
      cases hj

/-- Settles O25: the delay timer written, then an advance. -/
theorem delayTimerIsSetFromRegister : Obligations.DelayTimerIsSetFromRegister :=
  ⟨fun _ h => decode_eq_of_row (.ldDelay _) h rfl, fun _ s => ⟨_, rfl, rfl, rfl,
    (s.sameExcept_setDelay _).trans (State.sameExcept_advance _)⟩⟩

/-- Ticks of a running core: it stays running, `sound` counts down to 0, and one `Beep` is emitted on the way from 2 to 1
(R162, R163). -/
theorem State.tick_iterate {s : State} (h : s.halted = false) (n : Nat) :
    (State.tick^[n] s).halted = false ∧ (State.tick^[n] s).sound.toNat = s.sound.toNat - n ∧
    (State.tick^[n] s).events =
      s.events ++ (if 2 ≤ s.sound.toNat ∧ s.sound.toNat - 1 ≤ n then [.beep] else []) := by
  induction n with
  | zero => exact ⟨h, rfl, by rw [if_neg (by omega), List.append_nil]; rfl⟩
  | succ n ih =>
    obtain ⟨hrun, hsound, hevents⟩ := ih
    rw [Function.iterate_succ_apply']
    refine ⟨?_, ?_, ?_⟩
    · rw [State.tick_eq]; exact hrun
    · rw [State.tick_sound hrun]
      split <;> bv_omega
    · have htwo : (State.tick^[n] s).sound = 2#8 ↔ s.sound.toNat = n + 2 := by bv_omega
      rw [State.tick_events hrun, hevents, List.append_assoc]
      by_cases hbeep : s.sound.toNat = n + 2
      · rw [if_neg (by omega), if_pos (htwo.2 hbeep), if_pos (by omega), List.nil_append]
      · have hsame : (2 ≤ s.sound.toNat ∧ s.sound.toNat - 1 ≤ n) ↔ (2 ≤ s.sound.toNat ∧ s.sound.toNat - 1 ≤ n + 1) := by
          omega
        simp only [hsame, htwo, hbeep, if_false, List.append_nil]

/-- Settles O26: the sound timer written, then an advance; the ticks after it are `State.tick_iterate`. -/
theorem soundTimerIsSetAndBeepsOnce : Obligations.SoundTimerIsSetAndBeepsOnce :=
  ⟨fun _ h => decode_eq_of_row (.ldSound _) h rfl, fun x s => ⟨_, rfl, rfl, rfl,
    (s.sameExcept_setSound _).trans (State.sameExcept_advance _),
    fun hs n => (State.tick_iterate (s := (s.setSound (s.reg x)).advance) hs n).2.2⟩⟩

end Sys2Proof.Machine
end

section
/-! One step: the fetch (R60), a `Step` of the core (R188, R151, R28, R187), and the transactions of the timer unit and the
driver (R162, R165, R180), on a running core and on a halted one (R157, R171). -/

namespace Sys2Proof.Machine

/-! ## The fetch -/

/-- Where both bytes lie in memory a fetch changes nothing (R60). -/
theorem State.afterFetch_inside {s : State} (h : s.pc.toNat < 0xFFF) : s.afterFetch = s := by
  rw [State.afterFetch, diagnostics_inside .read (by omega), List.append_nil]

/-- At the last byte of memory a fetch reads the second byte above it (R60). -/
theorem State.afterFetch_last {s : State} (h : s.pc.toNat = 0xFFF) : s.afterFetch = s.emit (.diag 0x1000 .read) := by
  rw [State.afterFetch, h]
  rfl

/-- Above memory a fetch reads two bytes that are not there (R28). -/
theorem State.afterFetch_events_above {s : State} (h : 0xFFF < s.pc.toNat) :
    s.afterFetch.events = s.events ++ [.diag s.pc.toNat .read, .diag (s.pc.toNat + 1) .read] := by
  rw [State.afterFetch_events, diagnostics_succ .read _ 1, diagnostics_one_above .read h,
    diagnostics_one_above .read (by omega)]
  rfl

/-- Above memory the opcode is 0x0000, which is unknown (R28, R66). -/
theorem decode_opcode_above {s : State} (h : 0xFFF < s.pc.toNat) : decode s.opcode = .unknownOpcode 0x0000#16 := by
  rw [State.opcode, s.byteAt_above h, s.byteAt_above (by omega)]
  exact decode_zero

/-! ## A `Step` of the core -/

/-- Choosing the next transaction leaves the opcode alone. -/
theorem State.choose_opcode (s : State) : s.choose.2.opcode = s.opcode := by rw [s.choose_snd]; rfl

/-- Settles O40: choosing the `Step` leaves what it fetches alone, and a fetch changes nothing but at the last byte. -/
theorem stepRunsTheDecodedInstruction : Obligations.StepRunsTheDecodedInstruction := by
  intro s i hstep hrun hdec
  have hpc : s.choose.2.pc = s.pc := by rw [s.choose_snd]
  have hrun' : s.choose.2.halted = false := by rw [s.choose_snd]; exact hrun
  have hdec' : decode s.choose.2.opcode = .instr i := by rw [s.choose_opcode]; exact hdec
  have e : step s = exec i s.choose.2.afterFetch := by
    rw [step_eq, hstep]
    exact coreStep_instr hrun' hdec'
  refine ⟨fun h => ?_, fun h => ?_, pc_le_of_decoded hdec⟩
  · rw [e, State.afterFetch_inside (by rwa [hpc])]
  · rw [e, State.afterFetch_last (by rwa [hpc])]

/-- On an unknown word a running core's `Step` only fills the latch, after the fetch (R151, R156). -/
theorem coreStep_unknown_effect {s : State} {op : Word} (hrun : s.halted = false)
    (hdec : decode s.opcode = .unknownOpcode op) :
    ∃ t, coreStep s = .next t ∧ t.halted = true ∧ t.fault = some ⟨.unknownOpcode, op, s.pc⟩ ∧
      t.events = s.afterFetch.events ∧ s.SameExcept t [.halted, .fault, .events] :=
  ⟨_, coreStep_unknown hrun hdec, rfl, rfl, rfl,
    (s.sameExcept_afterFetch.trans (State.sameExcept_raise _ _ _)).mono (by decide)⟩

/-- Settles O42: `coreStep_unknown_effect`; the word is rejected under its own value. -/
theorem unknownOpcodeFillsTheFaultLatch : Obligations.UnknownOpcodeFillsTheFaultLatch := by
  intro s op hrun hdec
  obtain ⟨t, e, hhalted, hfault, hevents, hframe⟩ := coreStep_unknown_effect hrun hdec
  exact ⟨t, e, hhalted, hfault, decode_unknown_self hdec, hevents, hframe⟩

/-- Settles O43: `coreStep_unknown_effect` on the word 0x0000 that is read above memory. -/
theorem nothingExecutesAbove0FFF : Obligations.NothingExecutesAbove0FFF := by
  intro s hrun hpc
  obtain ⟨t, e, hhalted, hfault, hevents, hframe⟩ := coreStep_unknown_effect hrun (decode_opcode_above hpc)
  exact ⟨t, e, hhalted, hfault, hevents.trans (State.afterFetch_events_above hpc), hframe⟩

/-- Settles O7: the sum does not wrap, and above memory the next `Step` is an unknown opcode. -/
theorem jpV0AddsRegisterZero : Obligations.JpV0AddsRegisterZero := by
  refine ⟨fun _ h => decode_eq_of_row (.jpV0 _) h rfl, fun nnn s =>
    ⟨_, rfl, s.offsetTarget_toNat nnn, s.sameExcept_jump _, fun hrun hpc => ?_⟩⟩
  obtain ⟨u, e, hhalted, hfault, -⟩ :=
    coreStep_unknown_effect (s := s.jump (s.offsetTarget nnn)) hrun (decode_opcode_above hpc)
  exact ⟨u, e, hhalted, hfault⟩

/-- A finished state's jump lies with both bytes in memory: at the last byte it would read a low byte 0. -/
theorem State.Finished.pc_lt {s : State} (h : s.Finished) : s.pc.toNat < 0xFFF := by
  obtain ⟨hdec, hpc⟩ := h
  by_contra hnot
  have hlast : s.pc.toNat = 0xFFF := by omega
  have hnnn : s.pc.setWidth 12 = fieldNNN s.opcode := (decode_instr hdec).1
  have h2 := congrArg BitVec.toNat hnnn
  rw [fieldNNN_toNat, State.opcode, opcodeOf_toNat, s.byteAt_above (a := s.pc.toNat + 1) (by omega)] at h2
  simp [hlast] at h2
  omega

/-- Settles O55: the fetch changes nothing, and the jump writes the `pc` that is there. -/
theorem finishedStateIsAFixedPoint : Obligations.FinishedStateIsAFixedPoint := by
  intro s hs
  change coreStep s = .next s
  by_cases hhalt : s.halted = true
  · exact coreStep_halted hhalt
  · have htarget : absoluteAddress (s.pc.setWidth 12) = s.pc := by
      have := hs.pc_lt
      apply BitVec.eq_of_toNat_eq
      rw [absoluteAddress_toNat, BitVec.toNat_setWidth]
      omega
    rw [coreStep_instr (by simpa using hhalt) hs.1, State.afterFetch_inside hs.pc_lt]
    change Host.Outcome.next (s.jump (absoluteAddress (s.pc.setWidth 12))) = .next s
    rw [htarget]
    rfl

/-! ## The other transactions -/

/-- Settles O27: the laws of `Tick`, as numbers. -/
theorem tickDecrementsBothTimers : Obligations.TickDecrementsBothTimers := by
  intro s hrun
  refine ⟨_, rfl, ?delay, ?sound, State.tick_events hrun, ?frame⟩
  case delay => rw [State.tick_delay hrun]; split <;> bv_omega
  case sound => rw [State.tick_sound hrun]; split <;> bv_omega
  case frame =>
    intro f hf
    rw [State.tick_eq]
    cases f <;> simp [State.sameField, State.reg, State.byteAt, State.pixelAt] at hf ⊢

/-- Settles O29: the two updates on a running core, and two transactions that are the identity. -/
theorem driverTransactionsTouchOnlyTheirFlag : Obligations.DriverTransactionsTouchOnlyTheirFlag := by
  refine ⟨fun s k pressed hrun => ⟨_, rfl, ?_⟩, fun s hrun => ⟨_, rfl, ?_⟩, fun s => ⟨rfl, rfl, fun _ _ => ⟨rfl, rfl⟩⟩⟩
  · rw [State.setKey_running hrun]
    refine ⟨by simp, fun j hj => ?_, fun f hf => ?_⟩
    · exact Vector.getElem_set_ne k.isLt j.isLt fun e => hj (Fin.ext e.symm)
    · cases f <;> simp [State.sameField, State.reg, State.byteAt, State.pixelAt] at hf ⊢
  · rw [State.clearDirty_running hrun]
    refine ⟨rfl, fun f hf => ?_⟩
    cases f <;> simp [State.sameField, State.reg, State.byteAt, State.pixelAt] at hf ⊢

theorem State.reset_reg (r : Nibble) : State.reset.reg r = 0#8 := by simp [State.reset, State.reg]

/-- Settles O30: the reset values, field by field. -/
theorem resetLeavesTheStatedValues : Obligations.ResetLeavesTheStatedValues :=
  ⟨State.reset_reg, rfl, rfl, rfl, fun k => by simp [State.reset], rfl, rfl, State.restart_byteAt State.reset,
    Display.pixel_blank, rfl, fun k => by simp [State.reset], rfl, rfl, rfl⟩

/-- Settles O31: `restart` is the reset state but for the three fields it keeps. -/
theorem resetTransactionRestoresEverything : Obligations.ResetTransactionRestoresEverything := by
  intro s
  refine ⟨_, rfl, fun f hf => ?_, rfl, rfl, rfl⟩
  cases f <;> simp [State.sameField, State.restart, State.reg, State.byteAt, State.pixelAt] at hf ⊢

/-! ## The halted core -/

/-- Settles O47: every transaction but `Reset` asks for the latch first, or changes nothing at all. -/
theorem haltedCoreIsFrozen : Obligations.HaltedCoreIsFrozen := by
  intro s t hs ht
  cases t with
  | reset => exact absurd rfl ht
  | load font rom => exact if_pos hs
  | step => exact coreStep_halted hs
  | tick => exact congrArg Host.Outcome.next (if_pos hs)
  | setKey k pressed => exact congrArg Host.Outcome.next (if_pos hs)
  | clearDirty => exact congrArg Host.Outcome.next (if_pos hs)
  | isDirty => rfl
  | pixelAt x y => rfl

/-- Settles O48: a served transaction other than `Reset` is frozen by O47, so only the choice is seen. -/
theorem onlyResetLeavesTheHaltedState : Obligations.OnlyResetLeavesTheHaltedState := by
  intro s t hs h
  rw [step_eq] at h
  by_cases hreset : s.choose.1 = .reset
  · rw [hreset] at h
    cases h
    exact .inl ⟨hreset, rfl⟩
  · have hs' : s.choose.2.halted = true := by rw [s.choose_snd]; exact hs
    rw [haltedCoreIsFrozen _ _ hs' hreset] at h
    cases h
    exact .inr s.choose_snd

/-! ## Completion -/

theorem coreStep_next (s : State) : ∃ t, coreStep s = .next t := by
  rcases coreStep_cases s with ⟨_, e⟩ | ⟨_, i, _, e⟩ | ⟨_, op, _, e⟩
  · exact ⟨_, e⟩
  · rw [e]
    exact everyInstructionAnswersANextState i _
  · exact ⟨_, e⟩

/-- Settles O50: every transaction but `Load` answers a next state, a `Step` since every instruction does. -/
theorem onlyLoadCanStopARun : Obligations.OnlyLoadCanStopARun := by
  intro s hs
  rw [step_eq]
  cases hr : s.choose.1 with
  | load font rom => exact absurd hr (hs font rom)
  | step => exact coreStep_next _
  | reset | tick | setKey | isDirty | clearDirty | pixelAt => exact ⟨_, rfl⟩

/-! ## The driver's plan -/

/-- Settles O41: the four forms of `choose`. -/
theorem stepServesTheAgendaInOrder : Obligations.StepServesTheAgendaInOrder :=
  ⟨fun s h ho => by rw [step_eq, State.choose_steps h ho], fun s t rest h => by rw [step_eq, State.choose_agenda h],
    fun s t rest h ho => by rw [step_eq, State.choose_cycle h ho], fun s turn h ho => by rw [step_eq, State.choose_free h ho]⟩

/-- What is chosen depends on the plan alone. -/
theorem State.choose_congr {s t : State} (ha : t.agenda = s.agenda) (ho : t.onward = s.onward) :
    t.choose.1 = s.choose.1 ∧ t.choose.2.agenda = s.choose.2.agenda ∧ t.choose.2.onward = s.choose.2.onward := by
  simp only [State.choose, ha, ho]
  split <;> simp [ha, ho]

theorem State.planned_congr {s t : State} (ha : t.agenda = s.agenda) (ho : t.onward = s.onward) (n : Nat) :
    t.planned n = s.planned n := by
  obtain ⟨hchosen, ha', ho'⟩ := State.choose_congr ha ho
  induction n generalizing s t with
  | zero => exact hchosen
  | succ n ih =>
    obtain ⟨hchosen', ha'', ho''⟩ := State.choose_congr ha' ho'
    exact ih ha' ho' hchosen' ha'' ho''

/-- The agenda is served first, in order. -/
theorem State.planned_agenda (s : State) (n : Nat) (h : n < s.agenda.length) : s.planned n = s.agenda[n] := by
  obtain ⟨t, rest, ha⟩ := List.exists_cons_of_length_pos (Nat.zero_lt_of_lt h)
  induction n generalizing s t rest with
  | zero => simp [State.planned, State.choose_agenda ha, ha]
  | succ n ih =>
    simp only [ha, List.length_cons] at h
    obtain ⟨t', rest', ha'⟩ := List.exists_cons_of_length_pos (show 0 < rest.length by omega)
    simp only [ha, State.planned, State.choose_agenda ha, List.getElem_cons_succ]
    exact ih { s with agenda := rest } (by simpa using h) t' rest' ha'

/-- After its agenda a state plans what it would plan with an empty one. -/
theorem State.planned_after_agenda (s : State) (n : Nat) :
    s.planned (s.agenda.length + n) = { s with agenda := [] }.planned n := by
  induction ha : s.agenda generalizing s with
  | nil =>
    rw [List.length_nil, Nat.zero_add]
    exact State.planned_congr (s := { s with agenda := [] }) (t := s) ha rfl n
  | cons t rest ih =>
    rw [List.length_cons, Nat.add_right_comm, State.planned, State.choose_agenda ha]
    exact ih { s with agenda := rest } rfl

theorem State.planned_steps {s : State} (ha : s.agenda = []) (ho : s.onward = .cycle []) (n : Nat) : s.planned n = .step := by
  induction n with
  | zero => rw [State.planned, State.choose_steps ha ho]
  | succ n ih => rw [State.planned, State.choose_steps ha ho, ih]

theorem State.planned_free {s : State} {turn : Nat} (ha : s.agenda = []) (ho : s.onward = .free turn) (n : Nat) :
    s.planned n = Config.schedule (turn + n) := by
  induction n generalizing s turn with
  | zero => exact congrArg Prod.fst (State.choose_free ha ho)
  | succ n ih =>
    rw [State.planned, State.choose_free ha ho, Nat.add_comm n, ← Nat.add_assoc]
    exact ih ha rfl

/-- A block is served again and again: a turn beyond its end is the turn as far beyond its start. -/
theorem State.planned_cycle {s : State} {first : Transaction} {rest : List Transaction} (ha : s.agenda = [])
    (ho : s.onward = .cycle (first :: rest)) (n : Nat) :
    s.planned n = (first :: rest)[n % (first :: rest).length]'(Nat.mod_lt _ (Nat.succ_pos _)) := by
  induction n using Nat.strong_induction_on generalizing s with
  | _ n ih =>
    cases n with
    | zero => simp [State.planned, State.choose_cycle ha ho]
    | succ n =>
      rw [State.planned, State.choose_cycle ha ho]
      by_cases hn : n < rest.length
      · have hmod : (n + 1) % (first :: rest).length = n + 1 := Nat.mod_eq_of_lt (by simpa using hn)
        rw [State.planned_agenda _ n hn]
        simp only [hmod, List.getElem_cons_succ]
      · obtain ⟨m, rfl⟩ := Nat.exists_eq_add_of_le (Nat.le_of_not_lt hn)
        have hmod : (rest.length + m + 1) % (first :: rest).length = m % (first :: rest).length := by
          rw [List.length_cons, Nat.add_right_comm, Nat.add_mod_left]
        simp only [hmod]
        exact (State.planned_after_agenda { s with agenda := rest } m).trans (ih m (by omega) rfl ho)

/-- Settles O58: the four forms of a plan, and that a transaction leaves the plan that choosing it left. -/
theorem scheduleRunsAsPlanned : Obligations.ScheduleRunsAsPlanned := by
  refine ⟨State.planned_agenda, fun s n ho => ?steps, fun s first rest n ho => ?cycle, fun s turn n ho => ?free,
    fun s t h n => ?next⟩
  case steps => exact (s.planned_after_agenda n).trans (State.planned_steps (s := { s with agenda := [] }) rfl ho n)
  case cycle => exact (s.planned_after_agenda n).trans (State.planned_cycle (s := { s with agenda := [] }) rfl ho n)
  case free => exact (s.planned_after_agenda n).trans (State.planned_free (s := { s with agenda := [] }) rfl ho n)
  case next =>
    obtain ⟨ha, ho⟩ := transact_plan h
    exact State.planned_congr ha ho n

end Sys2Proof.Machine
end

section
/-! What no instruction reads (R17, R20): overwriting `sound` and `dirty` commutes with every operation, so an instruction
run from other values answers the same state but for them. -/

namespace Sys2Proof.Machine

/-- The state with other values of what only the host reads. -/
def State.setOutputs (s : State) (b : Byte) (d : Bool) : State := { s with sound := b, dirty := d }

section
variable (s : State) (b : Byte) (d : Bool)

theorem State.sameExcept_setOutputs : s.SameExcept (s.setOutputs b d) [.sound, .dirty] := by
  intro f hf
  cases f <;> simp [State.sameField, State.setOutputs, State.reg, State.byteAt, State.pixelAt] at hf ⊢

theorem State.pop_setOutputs : (s.setOutputs b d).pop = s.pop.map (fun r => (r.1, r.2.setOutputs b d)) := by
  by_cases h : s.sp.val = 0 <;> simp [State.pop, State.setOutputs, h]

theorem State.push_setOutputs (w : Word) : (s.setOutputs b d).push w = (s.push w).map (·.setOutputs b d) := by
  by_cases h : s.sp.val < 16 <;> simp [State.push, State.setOutputs, h]

theorem State.readBytes_setOutputs (a count : Nat) :
    (s.setOutputs b d).readBytes a count = ((s.readBytes a count).1, (s.readBytes a count).2.setOutputs b d) := by
  apply Prod.ext
  · rw [State.readBytes_fst, State.readBytes_fst]
    rfl
  · rw [State.readBytes_snd, State.readBytes_snd]
    rfl

theorem State.writeBytes_setOutputs (a : Nat) (bs : List Byte) :
    (s.setOutputs b d).writeBytes a bs = (s.writeBytes a bs).setOutputs b d := by
  induction bs generalizing s a with
  | nil => rfl
  | cons c cs ih =>
    have hone : (s.setOutputs b d).memWrite a c = (s.memWrite a c).setOutputs b d := by
      rw [State.memWrite_eq, State.memWrite_eq]
      rfl
    rw [State.writeBytes, hone, ih, State.writeBytes]

theorem State.setRegsFrom_setOutputs (k : Nat) (bs : List Byte) :
    (s.setOutputs b d).setRegsFrom k bs = (s.setRegsFrom k bs).setOutputs b d := by
  induction bs generalizing s k with
  | nil => rfl
  | cons c cs ih => exact ih (s.setReg (BitVec.ofNat 4 k) c) (k + 1)

end

/-- Run from other values of `sound` and `dirty`, an instruction answers the same state but for them: `Fx18` and the two
display instructions overwrite one, the rest carry both along. -/
theorem exec_setOutputs {i : Instr} {s t : State} (h : exec i s = .next t) (b : Byte) (d : Bool) :
    ∃ b' d', exec i (s.setOutputs b d) = .next (t.setOutputs b' d') := by
  cases i
  case ret =>
    refine ⟨b, d, ?_⟩
    simp only [exec, execRet, State.pop_setOutputs] at h ⊢
    cases hp : s.pop <;> rw [hp] at h <;> cases h <;> rfl
  case call nnn =>
    refine ⟨b, d, ?_⟩
    have hpc : (s.setOutputs b d).pc = s.pc := rfl
    simp only [exec, execCall, hpc, State.push_setOutputs] at h ⊢
    cases hp : s.push s.pc <;> rw [hp] at h <;> cases h <;> rfl
  case skp x | sknp x =>
    refine ⟨b, d, ?_⟩
    have hkey : (s.setOutputs b d).keyOperand x = s.keyOperand x := rfl
    simp only [exec, execSkp, execSknp, hkey] at h ⊢
    cases hk : s.keyOperand x <;> rw [hk] at h <;> cases h <;> rfl
  case ldKey x =>
    refine ⟨b, d, ?_⟩
    have hkey : (s.setOutputs b d).lastPressed = s.lastPressed := rfl
    simp only [exec, execLdKey, hkey] at h ⊢
    cases hk : s.lastPressed <;> rw [hk] at h <;> cases h <;> rfl
  all_goals cases h
  case ldSound x => exact ⟨s.reg x, d, rfl⟩
  case cls => exact ⟨b, true, rfl⟩
  case drw x y n =>
    refine ⟨b, true, ?_⟩
    have hbase : (s.setOutputs b d).dataBase = s.dataBase := rfl
    simp only [exec, execDrw, hbase, State.readBytes_setOutputs]
    rfl
  all_goals refine ⟨b, d, ?_⟩
  case ldBcd x | storeRegs x =>
    have hbase : (s.setOutputs b d).dataBase = s.dataBase := rfl
    simp only [exec, execLdBcd, execStoreRegs, hbase, State.writeBytes_setOutputs]
    rfl
  case loadRegs x =>
    have hbase : (s.setOutputs b d).dataBase = s.dataBase := rfl
    simp only [exec, execLoadRegs, hbase, State.readBytes_setOutputs, State.setRegsFrom_setOutputs]
    rfl
  all_goals rfl

/-- Settles O54: the answer of `exec_setOutputs` differs in the two overwritten fields alone. -/
theorem soundAndDirtyAreNeverRead : Obligations.SoundAndDirtyAreNeverRead := by
  intro i s t b d h
  obtain ⟨b', d', e⟩ := exec_setOutputs h b d
  exact ⟨_, e, t.sameExcept_setOutputs b' d'⟩

end Sys2Proof.Machine
end
